-- ==== Sys2Proof/Word.lean ====
section
/-! DEFINITION. The word types of the machine (spec/00_scope.md section 5, rule R6): unsigned integers of 4, 8, 12
and 16 bits, and the number of a general register. -/

namespace Sys2Proof

/-- A u8 of the spec: a register, a memory byte, an immediate `kk`. -/
abbrev Byte := BitVec 8

/-- A u16 of the spec: an instruction word, `pc`, `I`, a return address. -/
abbrev Word := BitVec 16

/-- A u12 of the spec: the address field `nnn`. -/
abbrev Addr12 := BitVec 12

/-- A u4 of the spec: one nibble of an instruction word, and the sprite height `n`. -/
abbrev Nibble := BitVec 4

/-- The number of a general register, V0 to VF (R12). -/
abbrev RegNum := Fin 16

/-- VF, the register that doubles as the flag (R14). -/
abbrev VF : RegNum := 15

/-- The bytes of memory: addresses 0x000 to 0xFFF (R33). -/
abbrev memSize : Nat := 0x1000

end Sys2Proof
end

