-- ==== Sys2Proof/Config.lean ====
section
/-! DEFINITION. The parameters of the block (spec/00_scope.md rule R7), fixed for one machine, and the free values that
stand for the inputs a host supplies with each cycle (rules R8, R62). -/

namespace Sys2Proof

/-- `SPRITE_EDGE` (R7, R116): what becomes of a sprite pixel past the right or bottom edge. -/
inductive SpriteEdge where
  | clip
  | wrap
deriving DecidableEq, Repr

/-- `ADDR_MODE` (R7, R42): what a data or fetch address past 0xFFF does. -/
inductive AddrMode where
  | fault
  | wrap
deriving DecidableEq, Repr

/-- The five parameters of R7. A `Config` holds legal values only: `STACK_DEPTH` is 12 to 16, so it is stored as its
excess over 12. -/
structure Config where
  /-- `STACK_DEPTH - 12`. -/
  depthAbove12 : Fin 5
  /-- `SPRITE_EDGE`. -/
  spriteEdge : SpriteEdge
  /-- `ADDR_MODE`. -/
  addrMode : AddrMode
  /-- `PC_ALIGN_CHECK`. -/
  pcAlignCheck : Bool
  /-- `FONT`: the 80 bytes at 0x050 to 0x09F, glyph 0 first. -/
  font : Vector Byte 80
deriving DecidableEq, Repr

/-- `STACK_DEPTH`, 12 to 16 (R7, R21). -/
def Config.stackDepth (c : Config) : Nat := 12 + c.depthAbove12.val

/-- The two inputs of one cycle (R62): the random byte `rnd` and the timer-tick flag `tick`. -/
structure CycleInput where
  rnd  : Byte
  tick : Bool
deriving DecidableEq, Repr

/-- FREE VALUE (R62; DESIGN CHOICE, log entry 1): the random byte of the `k`-th cycle for which the host's queue holds no input. "No law
constrains `rnd`": it has no body, so nothing can be proved of it. -/
opaque Config.freeRnd : Nat → Byte

/-- FREE VALUE (R8, R62; DESIGN CHOICE, log entry 1): the tick flag of the `k`-th cycle for which the host's queue holds no
input. -/
opaque Config.freeTick : Nat → Bool

end Sys2Proof
end

