-- ==== Sys2Proof/Syntax.lean ====
section
/-! DEFINITION. The instructions: one constructor for each of the 34 shapes of spec/30_encoding.md rule R55, and one for
the words that match no shape (rules R57, R66). -/

namespace Sys2Proof

/-- An instruction, in the order of spec/opcode_table.json. Register fields are register numbers, `nnn`, `kk` and `n`
are the zero-extended fields of R54. -/
inductive Instr where
  /-- `00E0` CLS (R113) -/
  | cls
  /-- `00EE` RET (R85) -/
  | ret
  /-- `1nnn` JP nnn (R84) -/
  | jp (nnn : Addr12)
  /-- `2nnn` CALL nnn (R86) -/
  | call (nnn : Addr12)
  /-- `3xkk` SE Vx, kk (R87) -/
  | seImm (x : RegNum) (kk : Byte)
  /-- `4xkk` SNE Vx, kk (R88) -/
  | sneImm (x : RegNum) (kk : Byte)
  /-- `5xy0` SE Vx, Vy (R89) -/
  | seReg (x y : RegNum)
  /-- `6xkk` LD Vx, kk (R94) -/
  | ldImm (x : RegNum) (kk : Byte)
  /-- `7xkk` ADD Vx, kk (R95) -/
  | addImm (x : RegNum) (kk : Byte)
  /-- `8xy0` LD Vx, Vy (R96) -/
  | ldReg (x y : RegNum)
  /-- `8xy1` OR Vx, Vy (R97) -/
  | orReg (x y : RegNum)
  /-- `8xy2` AND Vx, Vy (R98) -/
  | andReg (x y : RegNum)
  /-- `8xy3` XOR Vx, Vy (R99) -/
  | xorReg (x y : RegNum)
  /-- `8xy4` ADD Vx, Vy (R100) -/
  | addReg (x y : RegNum)
  /-- `8xy5` SUB Vx, Vy (R101) -/
  | sub (x y : RegNum)
  /-- `8xy6` SHR Vx (R102); `y` is decoded and has no effect (R56) -/
  | shr (x y : RegNum)
  /-- `8xy7` SUBN Vx, Vy (R103) -/
  | subn (x y : RegNum)
  /-- `8xyE` SHL Vx (R104); `y` is decoded and has no effect (R56) -/
  | shl (x y : RegNum)
  /-- `9xy0` SNE Vx, Vy (R90) -/
  | sneReg (x y : RegNum)
  /-- `Annn` LD I, nnn (R106) -/
  | ldI (nnn : Addr12)
  /-- `Bnnn` JP V0, nnn (R91) -/
  | jpV0 (nnn : Addr12)
  /-- `Cxkk` RND Vx, kk (R105) -/
  | rnd (x : RegNum) (kk : Byte)
  /-- `Dxyn` DRW Vx, Vy, n (R114) -/
  | drw (x y : RegNum) (n : Nibble)
  /-- `Ex9E` SKP Vx (R119) -/
  | skp (x : RegNum)
  /-- `ExA1` SKNP Vx (R120) -/
  | sknp (x : RegNum)
  /-- `Fx07` LD Vx, DT (R121) -/
  | ldVxDt (x : RegNum)
  /-- `Fx0A` LD Vx, K (R122) -/
  | ldVxK (x : RegNum)
  /-- `Fx15` LD DT, Vx (R123) -/
  | ldDtVx (x : RegNum)
  /-- `Fx18` LD ST, Vx (R124) -/
  | ldStVx (x : RegNum)
  /-- `Fx1E` ADD I, Vx (R107) -/
  | addI (x : RegNum)
  /-- `Fx29` LD F, Vx (R108) -/
  | ldF (x : RegNum)
  /-- `Fx33` LD B, Vx (R109) -/
  | ldB (x : RegNum)
  /-- `Fx55` LD [I], Vx (R110): `x` is the last register stored -/
  | storeRegs (x : RegNum)
  /-- `Fx65` LD Vx, [I] (R111): `x` is the last register loaded -/
  | loadRegs (x : RegNum)
  /-- UNKNOWN (R57, R66): a word that matches no shape, kept so that it can be encoded again (DESIGN CHOICE, log
  entry 11) -/
  | unknown (w : Word)
deriving DecidableEq, Repr

end Sys2Proof
end

