-- ==== Sys2Proof/WellFormed.lean ====
section
/-! DEFINITION. Which terms of `Instr` stand for an instruction word. Every field of the 34 shapes admits every value
(spec/30_encoding.md rule R54); an `unknown` term must carry a word that is unknown (rule R57). -/

namespace Sys2Proof

/-- The unknown words, group by group as the table of R57 lists them. (Decode.lean reads the shapes of R55; that the two
tables agree is a statement, not a definition.) -/
def isUnknownWord (w : Word) : Bool :=
  let op := w.extractLsb' 12 4
  let n  := w.extractLsb' 0 4
  let nn := w.extractLsb' 0 8
  (op == 0x0#4 && w != 0x00E0#16 && w != 0x00EE#16)
  || (op == 0x5#4 && n != 0x0#4)
  || (op == 0x8#4 && [0x8#4, 0x9#4, 0xA#4, 0xB#4, 0xC#4, 0xD#4, 0xF#4].contains n)
  || (op == 0x9#4 && n != 0x0#4)
  || (op == 0xE#4 && nn != 0x9E#8 && nn != 0xA1#8)
  || (op == 0xF#4 && !([0x07#8, 0x0A#8, 0x15#8, 0x18#8, 0x1E#8, 0x29#8, 0x33#8, 0x55#8, 0x65#8].contains nn))

/-- An instruction is well formed when its fields can stand in a word of its own shape. -/
def Instr.wf : Instr → Bool
  | .unknown w => isUnknownWord w
  | .cls | .ret => true
  | .jp _ | .call _ | .ldI _ | .jpV0 _ => true
  | .seImm _ _ | .sneImm _ _ | .ldImm _ _ | .addImm _ _ | .rnd _ _ => true
  | .seReg _ _ | .sneReg _ _ | .ldReg _ _ | .orReg _ _ | .andReg _ _ | .xorReg _ _ => true
  | .addReg _ _ | .sub _ _ | .shr _ _ | .subn _ _ | .shl _ _ => true
  | .drw _ _ _ => true
  | .skp _ | .sknp _ | .ldVxDt _ | .ldVxK _ | .ldDtVx _ | .ldStVx _ => true
  | .addI _ | .ldF _ | .ldB _ | .storeRegs _ | .loadRegs _ => true

end Sys2Proof
end

