-- ==== Sys2Proof/Decode.lean ====
section
/-! DEFINITION. The decoder (spec/30_encoding.md rules R52 to R59), the encoder written from the same table, and the table
itself as data (rule R55). -/

namespace Sys2Proof

/-! ### The fields of a word (R53) -/

/-- `op = w[15:12]`. -/
def fieldOp (w : Word) : Nibble := w.extractLsb' 12 4
/-- `x = w[11:8]`, as a register number. -/
def fieldX (w : Word) : RegNum := (w.extractLsb' 8 4).toFin
/-- `y = w[7:4]`, as a register number. -/
def fieldY (w : Word) : RegNum := (w.extractLsb' 4 4).toFin
/-- `n = w[3:0]`. -/
def fieldN (w : Word) : Nibble := w.extractLsb' 0 4
/-- `kk = w[7:0]`. -/
def fieldKK (w : Word) : Byte := w.extractLsb' 0 8
/-- `nnn = w[11:0]`. -/
def fieldNNN (w : Word) : Addr12 := w.extractLsb' 0 12

/-! ### The decoder -/

/-- The `8xy_` shapes (R55 rows 10 to 18), by their last nibble. -/
def decode8 (w : Word) : Instr :=
  match fieldN w with
  | 0x0#4 => .ldReg (fieldX w) (fieldY w)
  | 0x1#4 => .orReg (fieldX w) (fieldY w)
  | 0x2#4 => .andReg (fieldX w) (fieldY w)
  | 0x3#4 => .xorReg (fieldX w) (fieldY w)
  | 0x4#4 => .addReg (fieldX w) (fieldY w)
  | 0x5#4 => .sub (fieldX w) (fieldY w)
  | 0x6#4 => .shr (fieldX w) (fieldY w)
  | 0x7#4 => .subn (fieldX w) (fieldY w)
  | 0xE#4 => .shl (fieldX w) (fieldY w)
  | _ => .unknown w

/-- The `Fx__` shapes (R55 rows 26 to 34), by their low byte. -/
def decodeF (w : Word) : Instr :=
  match fieldKK w with
  | 0x07#8 => .ldVxDt (fieldX w)
  | 0x0A#8 => .ldVxK (fieldX w)
  | 0x15#8 => .ldDtVx (fieldX w)
  | 0x18#8 => .ldStVx (fieldX w)
  | 0x1E#8 => .addI (fieldX w)
  | 0x29#8 => .ldF (fieldX w)
  | 0x33#8 => .ldB (fieldX w)
  | 0x55#8 => .storeRegs (fieldX w)
  | 0x65#8 => .loadRegs (fieldX w)
  | _ => .unknown w

/-- Decode one word by the "Opcode shape" column of R55. Every word decodes (R53): what matches no shape is `unknown`. -/
def decodeWord (w : Word) : Instr :=
  match fieldOp w with
  | 0x0#4 => if w = 0x00E0#16 then .cls else if w = 0x00EE#16 then .ret else .unknown w
  | 0x1#4 => .jp (fieldNNN w)
  | 0x2#4 => .call (fieldNNN w)
  | 0x3#4 => .seImm (fieldX w) (fieldKK w)
  | 0x4#4 => .sneImm (fieldX w) (fieldKK w)
  | 0x5#4 => if fieldN w = 0x0#4 then .seReg (fieldX w) (fieldY w) else .unknown w
  | 0x6#4 => .ldImm (fieldX w) (fieldKK w)
  | 0x7#4 => .addImm (fieldX w) (fieldKK w)
  | 0x8#4 => decode8 w
  | 0x9#4 => if fieldN w = 0x0#4 then .sneReg (fieldX w) (fieldY w) else .unknown w
  | 0xA#4 => .ldI (fieldNNN w)
  | 0xB#4 => .jpV0 (fieldNNN w)
  | 0xC#4 => .rnd (fieldX w) (fieldKK w)
  | 0xD#4 => .drw (fieldX w) (fieldY w) (fieldN w)
  | 0xE#4 =>
    if fieldKK w = 0x9E#8 then .skp (fieldX w) else if fieldKK w = 0xA1#8 then .sknp (fieldX w) else .unknown w
  | _ => decodeF w

/-- Why a byte sequence holds no instruction: it ends before the second byte of the word. (No word is refused, R58.) -/
inductive DecodeError where
  | truncated
deriving DecidableEq, Repr

/-- Two bytes make a word, the byte at the lower address in bits 15:8 (R36). -/
def wordOfBytes (hi lo : Byte) : Word := hi ++ lo

/-- Decode the instruction at the front of a byte sequence and give back the rest; total, and refusing by name only a
sequence too short to hold a word. -/
def decode : List Byte → Except DecodeError (Instr × List Byte)
  | hi :: lo :: rest => .ok (decodeWord (wordOfBytes hi lo), rest)
  | _ => .error .truncated

/-! ### The encoder -/

/-- Format `NNN` (R53). -/
def formNNN (op : Nibble) (nnn : Addr12) : Word := op ++ nnn
/-- Format `XKK` (R53); format `X` is the same with a fixed `kk`. -/
def formXKK (op : Nibble) (x : RegNum) (kk : Byte) : Word := op ++ (BitVec.ofFin x : Nibble) ++ kk
/-- Format `XYN` (R53); format `XY` is the same with a fixed `n`. -/
def formXYN (op : Nibble) (x y : RegNum) (n : Nibble) : Word :=
  op ++ (BitVec.ofFin x : Nibble) ++ (BitVec.ofFin y : Nibble) ++ n

/-- The word of a well-formed instruction (R55). -/
def encodeWord : Instr → Word
  | .cls => 0x00E0#16
  | .ret => 0x00EE#16
  | .jp nnn => formNNN 0x1 nnn
  | .call nnn => formNNN 0x2 nnn
  | .seImm x kk => formXKK 0x3 x kk
  | .sneImm x kk => formXKK 0x4 x kk
  | .seReg x y => formXYN 0x5 x y 0x0
  | .ldImm x kk => formXKK 0x6 x kk
  | .addImm x kk => formXKK 0x7 x kk
  | .ldReg x y => formXYN 0x8 x y 0x0
  | .orReg x y => formXYN 0x8 x y 0x1
  | .andReg x y => formXYN 0x8 x y 0x2
  | .xorReg x y => formXYN 0x8 x y 0x3
  | .addReg x y => formXYN 0x8 x y 0x4
  | .sub x y => formXYN 0x8 x y 0x5
  | .shr x y => formXYN 0x8 x y 0x6
  | .subn x y => formXYN 0x8 x y 0x7
  | .shl x y => formXYN 0x8 x y 0xE
  | .sneReg x y => formXYN 0x9 x y 0x0
  | .ldI nnn => formNNN 0xA nnn
  | .jpV0 nnn => formNNN 0xB nnn
  | .rnd x kk => formXKK 0xC x kk
  | .drw x y n => formXYN 0xD x y n
  | .skp x => formXKK 0xE x 0x9E
  | .sknp x => formXKK 0xE x 0xA1
  | .ldVxDt x => formXKK 0xF x 0x07
  | .ldVxK x => formXKK 0xF x 0x0A
  | .ldDtVx x => formXKK 0xF x 0x15
  | .ldStVx x => formXKK 0xF x 0x18
  | .addI x => formXKK 0xF x 0x1E
  | .ldF x => formXKK 0xF x 0x29
  | .ldB x => formXKK 0xF x 0x33
  | .storeRegs x => formXKK 0xF x 0x55
  | .loadRegs x => formXKK 0xF x 0x65
  | .unknown w => w

/-- The two bytes of a word in memory order (R36). -/
def bytesOfWord (w : Word) : List Byte := [w.extractLsb' 8 8, w.extractLsb' 0 8]

/-- The bytes of a well-formed instruction. -/
def encode (i : Instr) : List Byte := bytesOfWord (encodeWord i)

/-! ### The table of R55 -/

/-- The row of spec/opcode_table.json an instruction belongs to: its number in R55, 1 to 34, or 0 for UNKNOWN. -/
def rowNumber : Instr → Nat
  | .cls => 1
  | .ret => 2
  | .jp _ => 3
  | .call _ => 4
  | .seImm _ _ => 5
  | .sneImm _ _ => 6
  | .seReg _ _ => 7
  | .ldImm _ _ => 8
  | .addImm _ _ => 9
  | .ldReg _ _ => 10
  | .orReg _ _ => 11
  | .andReg _ _ => 12
  | .xorReg _ _ => 13
  | .addReg _ _ => 14
  | .sub _ _ => 15
  | .shr _ _ => 16
  | .subn _ _ => 17
  | .shl _ _ => 18
  | .sneReg _ _ => 19
  | .ldI _ => 20
  | .jpV0 _ => 21
  | .rnd _ _ => 22
  | .drw _ _ _ => 23
  | .skp _ => 24
  | .sknp _ => 25
  | .ldVxDt _ => 26
  | .ldVxK _ => 27
  | .ldDtVx _ => 28
  | .ldStVx _ => 29
  | .addI _ => 30
  | .ldF _ => 31
  | .ldB _ => 32
  | .storeRegs _ => 33
  | .loadRegs _ => 34
  | .unknown _ => 0

/-- The rows of R55: (number, match, mask). -/
def opcodeRows : List (Nat × Word × Word) :=
  [(1, 0x00E0, 0xFFFF), (2, 0x00EE, 0xFFFF), (3, 0x1000, 0xF000), (4, 0x2000, 0xF000),
   (5, 0x3000, 0xF000), (6, 0x4000, 0xF000), (7, 0x5000, 0xF00F), (8, 0x6000, 0xF000), (9, 0x7000, 0xF000)]
  ++ [(10, 0x8000, 0xF00F), (11, 0x8001, 0xF00F), (12, 0x8002, 0xF00F), (13, 0x8003, 0xF00F),
      (14, 0x8004, 0xF00F), (15, 0x8005, 0xF00F), (16, 0x8006, 0xF00F), (17, 0x8007, 0xF00F), (18, 0x800E, 0xF00F)]
  ++ [(19, 0x9000, 0xF00F), (20, 0xA000, 0xF000), (21, 0xB000, 0xF000), (22, 0xC000, 0xF000), (23, 0xD000, 0xF000),
      (24, 0xE09E, 0xF0FF), (25, 0xE0A1, 0xF0FF)]
  ++ [(26, 0xF007, 0xF0FF), (27, 0xF00A, 0xF0FF), (28, 0xF015, 0xF0FF), (29, 0xF018, 0xF0FF), (30, 0xF01E, 0xF0FF),
      (31, 0xF029, 0xF0FF), (32, 0xF033, 0xF0FF), (33, 0xF055, 0xF0FF), (34, 0xF065, 0xF0FF)]

/-- A word matches a row when `(w AND mask) = match` (R55). -/
def matchesRow (w : Word) (row : Nat × Word × Word) : Bool := w &&& row.2.2 == row.2.1

/-! ### The host's question -/

/-- The word of a table row, whose bits above `nbits` are 0. -/
def tableWord (nbits w : Nat) : Word := BitVec.ofNat 16 (w % 2 ^ nbits)

/-- The instruction the decoder reads from a table row's bits, laid out in memory order. -/
def decodeTableWord (nbits w : Nat) : Option Instr :=
  match decode (bytesOfWord (tableWord nbits w)) with
  | .ok (i, _) => some i
  | .error _ => none

end Sys2Proof
end

