-- ==== Sys2Proof/Machine/State.lean ====
section
/-! DEFINITION. The state of the block (spec/10_state.md), its errors (spec/60_exceptions.md rule R125), and the state after
reset (rules R32, R140). -/

namespace Sys2Proof.Machine

/-- Memory (R27): the bytes that differ from what an unlisted address reads as, by strictly rising address. Ops.lean says
what an unlisted address reads as and which lists are canonical. -/
abbrev Memory := List Host.Cell

/-- The display (R26): 32 rows, row 0 first, of 64 columns. -/
abbrev Display := Vector (Vector Bool 64) 32

/-- The whole machine. The fields down to `ir` are the block's architectural state, each under the spec's name. `cfg`
holds the parameters, which no operation changes. `inputs` and `draws` are the model's own: they supply the inputs of
the coming cycles (DESIGN CHOICE, log entry 1). -/
structure State where
  /-- V0 to VF (R12). -/
  V : Vector Byte 16
  /-- The index register (R17). -/
  I : Word
  /-- The program counter (R18). -/
  pc : Word
  /-- The number of live entries of the call stack (R22). -/
  sp : BitVec 8
  /-- The call stack (R21): entries 0 to `STACK_DEPTH - 1` are used, the others keep their reset value
  (DESIGN CHOICE, log entry 6). -/
  stack : Vector Word 16
  /-- The delay timer (R24). -/
  DT : Byte
  /-- The sound timer (R24). -/
  ST : Byte
  /-- The key latch (R25): `key[k]` is true while key `k` is pressed. -/
  key : Vector Bool 16
  /-- The display buffer (R26). -/
  disp : Display
  /-- Memory (R27). -/
  memory : Memory
  /-- The introspection register (R31). -/
  ir : Word
  /-- The parameters of this machine (R7; DESIGN CHOICE, log entry 8). -/
  cfg : Config
  /-- The inputs the host has supplied for the coming cycles, the next cycle's first (R62). -/
  inputs : List CycleInput
  /-- How many cycles have taken a free input so far. -/
  draws : Nat
deriving DecidableEq, Repr

/-- The errors a cycle reports (R125), with what R126 says is reported. A fault commits nothing (R128), so a fault carries
no state (DESIGN CHOICE, log entry 9). Raising one is safe: the spec names each and when it arises. -/
inductive Fault where
  /-- Raised by CALL when the stack is full (R86); safe. -/
  | stackOverflow (cpc : Word)
  /-- Raised by RET when the stack is empty (R85); safe. -/
  | stackUnderflow (cpc : Word)
  /-- Raised by DRW, LD B, LD [I] and LD Vx, [I] on a data address past 0xFFF when `ADDR_MODE` is `fault` (R42); `addr` is
  the lowest failing address; safe. -/
  | addressOutOfRange (cpc : Word) (addr : Nat)
  /-- Raised by the fetch from an odd `pc` when `PC_ALIGN_CHECK` (R63); safe. -/
  | pcMisaligned (cpc : Word)
  /-- Raised by the fetch from a `pc` past 0xFFE when `ADDR_MODE` is `fault` (R63); safe. -/
  | pcOutOfRange (cpc : Word)
deriving DecidableEq, Repr

/-- The reasons the model has no meaning for an instruction. -/
inductive Refusal where
  /-- Raised by an arm of `exec` for an instruction not modelled yet; no arm raises it now; safe. -/
  | notModelled (mnemonic : String)
deriving DecidableEq, Repr

/-- What one instruction, and one cycle, answers. -/
abbrev Result := Host.Outcome State Fault Refusal

/-- The state after reset of a machine with parameters `cfg` (R32, R140): every piece of state zero, false or empty, but
for `pc`, and for the font, which is what its unlisted addresses read as. (DESIGN CHOICE, log entry 5, for every value but
`pc`, `sp` and the font.) -/
def State.resetWith (cfg : Config) : State where
  V := Vector.replicate 16 0
  I := 0
  pc := 0x0200
  sp := 0
  stack := Vector.replicate 16 0
  DT := 0
  ST := 0
  key := Vector.replicate 16 false
  disp := Vector.replicate 32 (Vector.replicate 64 false)
  memory := []
  ir := 0
  cfg := cfg
  inputs := []
  draws := 0

/-- The machine right after reset, with the default parameters (R7). No input is supplied yet, so every coming cycle's
`rnd` and `tick` are free. -/
def State.reset : State := State.resetWith defaultConfig

end Sys2Proof.Machine
end

