-- ==== Sys2Proof/Machine/Ops.lean ====
section
/-! DEFINITION. The operations the meanings share: registers, memory and its address check, the call stack, the display's
pixels, the inputs of a cycle, raising an error, and the parts of a cycle around its instruction. -/

namespace Sys2Proof.Machine

/-! ### Memory as data (spec/20_memory.md) -/

/-- The first byte of the font (R38). -/
def fontBase : Nat := 0x050

/-- An address of the font region, 0x050 to 0x09F (R33). -/
abbrev InFont (a : Nat) : Prop := 0x050 ≤ a ∧ a ≤ 0x09F

/-- What an unlisted address reads as: its reset contents, the font or zero (R32, R38; DESIGN CHOICE, log entry
5). -/
def Memory.unlisted (font : Vector Byte 80) (a : Nat) : Byte :=
  if h : InFont a then font[a - 0x050]'(by simp only [InFont] at h; omega) else 0

/-- The byte at an address. -/
def Memory.read (font : Vector Byte 80) (m : Memory) (a : Nat) : Byte :=
  match m.lookup a with
  | some b => b
  | none => Memory.unlisted font a

/-- List the byte `b` at address `a`, in its place. -/
def Memory.insert (a : Nat) (b : Byte) : Memory → Memory
  | [] => [(a, b)]
  | (k, v) :: rest =>
    if a < k then (a, b) :: (k, v) :: rest
    else if a = k then (a, b) :: rest
    else (k, v) :: Memory.insert a b rest

/-- Unlist address `a`. -/
def Memory.erase (a : Nat) : Memory → Memory
  | [] => []
  | (k, v) :: rest => if k = a then Memory.erase a rest else (k, v) :: Memory.erase a rest

/-- Write one byte, keeping the canonical form: a byte equal to what the unlisted address reads as is not listed. -/
def Memory.write (font : Vector Byte 80) (m : Memory) (a : Nat) (b : Byte) : Memory :=
  if b = Memory.unlisted font a then Memory.erase a m else Memory.insert a b m

/-- The canonical form: addresses strictly rising and below 0x1000, no entry equal to what its address reads as unlisted. -/
abbrev Memory.wf (font : Vector Byte 80) (m : Memory) : Prop :=
  m.Pairwise (fun p q => p.1 < q.1) ∧ ∀ p ∈ m, p.1 < memSize ∧ p.2 ≠ Memory.unlisted font p.1

/-! ### Memory of the machine -/

/-- The byte at address `a`. -/
def State.readByte (s : State) (a : Nat) : Byte := Memory.read s.cfg.font s.memory a

/-- Write a byte with no protection: what ROM load does (R78). -/
def State.writeByte (s : State) (a : Nat) (b : Byte) : State :=
  { s with memory := Memory.write s.cfg.font s.memory a b }

/-- `MemWrite` at a checked address: a write into the font region is discarded (R44). -/
def State.storeByte (s : State) (a : Nat) (b : Byte) : State :=
  if InFont a then s else s.writeByte a b

/-- Store several bytes in order, each at its own checked address. -/
def State.storeBytes (s : State) : List (Nat × Byte) → State
  | [] => s
  | (a, b) :: rest => (s.storeByte a b).storeBytes rest

/-- The address check of R42; an error is the failing address. -/
def checkAddr (mode : AddrMode) (a : Nat) : Except Nat Nat :=
  if a ≤ 0xFFF then .ok a
  else match mode with
    | .wrap => .ok (a % 0x1000)
    | .fault => .error a

/-- Check every address before any is used (R43); an error is the first that fails. -/
def checkAddrs (mode : AddrMode) : List Nat → Except Nat (List Nat)
  | [] => .ok []
  | a :: rest =>
    match checkAddr mode a with
    | .error e => .error e
    | .ok c =>
      match checkAddrs mode rest with
      | .error e => .error e
      | .ok cs => .ok (c :: cs)

/-! ### Registers -/

/-- Read a general register (R12). -/
def State.reg (s : State) (x : RegNum) : Byte := s.V[x]

/-- Write a general register (R12). -/
def State.setReg (s : State) (x : RegNum) (v : Byte) : State := { s with V := s.V.set x v }

/-- Write a result to Vx and then a flag to VF, in that order, so that VF ends as the flag when `x = 0xF` (R16). -/
def State.setRegThenFlag (s : State) (x : RegNum) (v : Byte) (flag : Bool) : State :=
  (s.setReg x v).setReg VF (if flag then 1 else 0)

/-- Write V0, V1, … from a list, as many as the list holds (R111). -/
def State.setRegs (s : State) (vals : List Byte) : State :=
  { s with V := Vector.ofFn fun i => (vals[i.val]?).getD s.V[i] }

/-- The registers V0 to Vx, in order (R110). -/
def State.regsUpTo (s : State) (x : RegNum) : List Byte := s.V.toList.take (x.val + 1)

/-! ### Program counter -/

/-- The address the current instruction was fetched from: while it executes, `pc = cpc + 2` (R18, R64). -/
def State.cpc (s : State) : Word := s.pc - 2

/-- A skip, when `taken`: `pc <- trunc_16(pc + 2)` (R82). -/
def State.skipIf (s : State) (taken : Bool) : State := { s with pc := if taken then s.pc + 2 else s.pc }

/-! ### Call stack (R21, R22) -/

/-- Entry `j` of the call stack; the spec has none past the last, which no legal `sp` reaches (DESIGN CHOICE, log entry
6). -/
def State.stackEntry (s : State) (j : Nat) : Word := (s.stack[j]?).getD 0

/-- The stack is full: `sp = STACK_DEPTH` (R22). An `sp` past `STACK_DEPTH`, which R22 excludes, counts as full (DESIGN
CHOICE, log entry 6). -/
def State.stackFull (s : State) : Bool := s.cfg.stackDepth ≤ s.sp.toNat

/-- The stack is empty: `sp = 0` (R22). -/
def State.stackEmpty (s : State) : Bool := s.sp == 0

/-- Push a return address: write `stack[sp]`, then increment `sp`. -/
def State.push (s : State) (a : Word) : State :=
  { s with stack := s.stack.setIfInBounds s.sp.toNat a, sp := s.sp + 1 }

/-- Pop a return address into `pc`: decrement `sp`, then read `stack[sp]`, which keeps its value (R23). -/
def State.popPc (s : State) : State :=
  { s with sp := s.sp - 1, pc := s.stackEntry (s.sp - 1).toNat }

/-! ### Display (R26) -/

/-- The pixel at row `r`, column `c`. -/
def Display.pixel (d : Display) (r : Fin 32) (c : Fin 64) : Bool := d[r][c]

/-- The display with the pixel at row `r`, column `c` toggled. -/
def Display.toggle (d : Display) (r : Fin 32) (c : Fin 64) : Display := d.set r (d[r].set c (!d[r][c]))

/-- Every pixel false. -/
def Display.clear : Display := Vector.replicate 32 (Vector.replicate 64 false)

/-! ### Keys (R25) -/

/-- Key `k` is pressed. -/
def State.keyPressed (s : State) (k : Fin 16) : Bool := s.key[k]

/-- The lowest-numbered pressed key (R122). -/
def State.firstKey (s : State) : Option (Fin 16) := (List.finRange 16).find? s.keyPressed

/-! ### The inputs of a cycle (R62) -/

/-- The inputs of the cycle being run: the first the host has supplied, else free values (DESIGN CHOICE, log entry
1). -/
def State.input (s : State) : CycleInput :=
  match s.inputs with
  | i :: _ => i
  | [] => { rnd := Config.freeRnd s.draws, tick := Config.freeTick s.draws }

/-- Use up the inputs of the cycle that has just completed. -/
def State.nextInput (s : State) : State :=
  match s.inputs with
  | _ :: rest => { s with inputs := rest }
  | [] => { s with draws := s.draws + 1 }

/-! ### Errors (spec/60_exceptions.md)

The block has no trap entry and no return from one (R130, R131): an error moves no control, saves nothing, and leaves the
whole state as it was (R128). Raising one is therefore all there is of taking an exception. -/

/-- End the cycle with an error; nothing of the cycle is committed (R68, R128). -/
def raise (f : Fault) : Result := .fault f

/-- Run `k` on the checked addresses of a data access, or raise `AddressOutOfRange` with the lowest failing address before
anything is read or written (R43, R129). -/
def withChecked (s : State) (addrs : List Nat) (k : List Nat → Result) : Result :=
  match checkAddrs s.cfg.addrMode addrs with
  | .error a => raise (.addressOutOfRange s.cpc a)
  | .ok cs => k cs

/-! ### The parts of a cycle around its instruction (spec/40_cycle.md) -/

/-- Fetch the word at `pc`, after the checks of R63 in their order (R129). -/
def State.fetch (s : State) : Except Fault Word :=
  if s.cfg.pcAlignCheck && s.pc.getLsbD 0 then .error (.pcMisaligned s.pc)
  else if s.cfg.addrMode = .fault ∧ 0xFFE < s.pc.toNat then .error (.pcOutOfRange s.pc)
  else .ok (wordOfBytes (s.readByte (s.pc.toNat % 0x1000)) (s.readByte ((s.pc.toNat + 1) % 0x1000)))

/-- Advance: `pc <- trunc_16(cpc + 2)` (R64). -/
def State.advance (s : State) : State := { s with pc := s.pc + 2 }

/-- One tick of a timer: down by 1, stopping at 0 (R67). -/
def tickTimer (t : Byte) : Byte := if t = 0 then 0 else t - 1

/-- The timer tick at the end of a cycle (R67). -/
def State.tickTimers (s : State) (tick : Bool) : State :=
  { s with DT := if tick then tickTimer s.DT else s.DT, ST := if tick then tickTimer s.ST else s.ST }

/-- The end of a cycle that completes: the timers tick on what the instruction left, `ir` takes the word, and the cycle's
inputs are used up (R67, R69). -/
def State.complete (s : State) (w : Word) : State :=
  { s.tickTimers s.input.tick with ir := w }.nextInput

/-- Put a word where the next fetch reads it. -/
def State.placeWord (s : State) (w : Word) : State :=
  (s.writeByte (s.pc.toNat % 0x1000) (w.extractLsb' 8 8)).writeByte ((s.pc.toNat + 1) % 0x1000) (w.extractLsb' 0 8)

end Sys2Proof.Machine
end

