-- ==== Sys2Proof/Machine/Flags.lean ====
section
/-! DEFINITION. The flag computations (spec/10_state.md rule R14, spec/42_alu.md rule R93, spec/44_display.md rule R114),
each from the operands as they were before any write (R15, R92). -/

namespace Sys2Proof.Machine

/-- The carry of `a + b`: 1 iff the sum exceeds 255 (R100). -/
def carryFlag (a b : Byte) : Bool := a.toNat + b.toNat > 255

/-- No borrow in `a - b`: 1 iff `a >= b` (R101, R103). -/
def noBorrowFlag (a b : Byte) : Bool := a.toNat ≥ b.toNat

/-- The bit a right shift drops: bit 0 (R102). -/
def lowBitFlag (a : Byte) : Bool := a.getLsbD 0

/-- The bit a left shift drops: bit 7 (R104). -/
def highBitFlag (a : Byte) : Bool := a.getLsbD 7

/-- Toggle the points of a sprite one after another; the flag tells whether one of them was set, that is, went from set to
unset (R114). -/
def drawPoints (d : Display) (collision : Bool) : List (Fin 32 × Fin 64) → Display × Bool
  | [] => (d, collision)
  | (r, c) :: rest => drawPoints (d.toggle r c) (collision || d.pixel r c) rest

end Sys2Proof.Machine
end

