-- ==== Sys2Proof/Machine/Alu.lean ====
section
/-! DEFINITION. The meanings of register loads, arithmetic and logic (spec/42_alu.md). Results are computed on naturals and
truncated on the write (R92); a flag is written after the result (R16). -/

namespace Sys2Proof.Machine

/-- `trunc_8` (spec/00_scope.md section 5). -/
def trunc8 (v : Nat) : Byte := BitVec.ofNat 8 v

/-- `6xkk` LD Vx, kk (R94). -/
def execLdImm (x : RegNum) (kk : Byte) (s : State) : Result := .next (s.setReg x kk)

/-- `7xkk` ADD Vx, kk (R95): no flag. -/
def execAddImm (x : RegNum) (kk : Byte) (s : State) : Result :=
  .next (s.setReg x (trunc8 ((s.reg x).toNat + kk.toNat)))

/-- `8xy0` LD Vx, Vy (R96). -/
def execLdReg (x y : RegNum) (s : State) : Result := .next (s.setReg x (s.reg y))

/-- `8xy1` OR Vx, Vy (R97). -/
def execOr (x y : RegNum) (s : State) : Result := .next (s.setReg x (s.reg x ||| s.reg y))

/-- `8xy2` AND Vx, Vy (R98). -/
def execAnd (x y : RegNum) (s : State) : Result := .next (s.setReg x (s.reg x &&& s.reg y))

/-- `8xy3` XOR Vx, Vy (R99). -/
def execXor (x y : RegNum) (s : State) : Result := .next (s.setReg x (s.reg x ^^^ s.reg y))

/-- `8xy4` ADD Vx, Vy (R100): VF is the carry. -/
def execAddReg (x y : RegNum) (s : State) : Result :=
  .next (s.setRegThenFlag x (trunc8 ((s.reg x).toNat + (s.reg y).toNat)) (carryFlag (s.reg x) (s.reg y)))

/-- `8xy5` SUB Vx, Vy (R101): VF is "no borrow". -/
def execSub (x y : RegNum) (s : State) : Result :=
  .next (s.setRegThenFlag x (trunc8 ((s.reg x).toNat + 256 - (s.reg y).toNat)) (noBorrowFlag (s.reg x) (s.reg y)))

/-- `8xy6` SHR Vx (R102): VF is the bit shifted out; the word's `y` field has no part in it (R56). -/
def execShr (x _y : RegNum) (s : State) : Result :=
  .next (s.setRegThenFlag x (s.reg x >>> 1) (lowBitFlag (s.reg x)))

/-- `8xy7` SUBN Vx, Vy (R103): VF is "no borrow". -/
def execSubn (x y : RegNum) (s : State) : Result :=
  .next (s.setRegThenFlag x (trunc8 ((s.reg y).toNat + 256 - (s.reg x).toNat)) (noBorrowFlag (s.reg y) (s.reg x)))

/-- `8xyE` SHL Vx (R104): VF is the bit shifted out; the word's `y` field has no part in it (R56). -/
def execShl (x _y : RegNum) (s : State) : Result :=
  .next (s.setRegThenFlag x (s.reg x <<< 1) (highBitFlag (s.reg x)))

/-- `Cxkk` RND Vx, kk (R105): the random byte is the cycle's input `rnd`. -/
def execRnd (x : RegNum) (kk : Byte) (s : State) : Result := .next (s.setReg x (s.input.rnd &&& kk))

end Sys2Proof.Machine
end

