-- ==== Sys2Proof/Machine/Operands.lean ====
section
/-! DEFINITION. The operand forms: the one addressing mode, `I` plus a constant (spec/43_index_memory.md), the key index, the
glyph address, the decimal digits, and the points of a sprite (spec/44_display.md section 3). -/

namespace Sys2Proof.Machine

/-- The addresses `I` to `I + n - 1`, computed without truncation (R42). -/
def State.indexAddrs (s : State) (n : Nat) : List Nat := (List.range n).map (s.I.toNat + ·)

/-- `zext_16(nnn)` (R54). -/
def zextAddr (nnn : Addr12) : Word := nnn.setWidth 16

/-- The key that `Ex9E` and `ExA1` test: `V[x] mod 16` (R118). -/
def keyIndex (v : Byte) : Fin 16 := Fin.ofNat 16 v.toNat

/-- The address of the glyph of a digit, by the unmasked formula `0x050 + 5 * Vx` (R108). -/
def glyphAddr (v : Byte) : Word := BitVec.ofNat 16 (fontBase + 5 * v.toNat)

/-- The three decimal digits of a byte, most significant first (R109). -/
def bcdDigits (v : Byte) : List Byte :=
  [BitVec.ofNat 8 (v.toNat / 100), BitVec.ofNat 8 (v.toNat / 10 % 10), BitVec.ofNat 8 (v.toNat % 10)]

/-- Where a sprite pixel at column `c`, row `r` falls on the grid: under `clip` nowhere if it is past an edge, under `wrap`
at the coordinates modulo the grid (R116). -/
def gridPoint (edge : SpriteEdge) (c r : Nat) : Option (Fin 32 × Fin 64) :=
  match edge with
  | .clip => if h : r < 32 ∧ c < 64 then some (⟨r, h.1⟩, ⟨c, h.2⟩) else none
  | .wrap => some (Fin.ofNat 32 r, Fin.ofNat 64 c)

/-- The grid points of one sprite row: bit `7 - b` of its byte is the pixel at column `x0 + b` (R117). -/
def rowPoints (edge : SpriteEdge) (x0 r : Nat) (byte : Byte) : List (Fin 32 × Fin 64) :=
  (List.range 8).filterMap fun b => if byte.getLsbD (7 - b) then gridPoint edge (x0 + b) r else none

/-- The grid points of a sprite, in the order of the byte/row walk: byte `r` is row `y0 + r` (R114, R117). -/
def spritePoints (edge : SpriteEdge) (x0 y0 : Nat) : List Byte → List (Fin 32 × Fin 64)
  | [] => []
  | byte :: rest => rowPoints edge x0 y0 byte ++ spritePoints edge x0 (y0 + 1) rest

end Sys2Proof.Machine
end

