-- ==== Sys2Proof/Machine/ControlFlow.lean ====
section
/-! DEFINITION. The meanings of control transfer (spec/41_control_flow.md). On entry `pc = cpc + 2` (R64); a target is not
checked when it is written (R83). -/

namespace Sys2Proof.Machine

/-- `00EE` RET (R85). -/
def execRet (s : State) : Result :=
  if s.stackEmpty then raise (.stackUnderflow s.cpc) else .next s.popPc

/-- `1nnn` JP nnn (R84). -/
def execJp (nnn : Addr12) (s : State) : Result := .next { s with pc := zextAddr nnn }

/-- `2nnn` CALL nnn (R86): the pushed `pc` is the advanced one. -/
def execCall (nnn : Addr12) (s : State) : Result :=
  if s.stackFull then raise (.stackOverflow s.cpc) else .next { s.push s.pc with pc := zextAddr nnn }

/-- `3xkk` SE Vx, kk (R87). -/
def execSeImm (x : RegNum) (kk : Byte) (s : State) : Result := .next (s.skipIf (s.reg x == kk))

/-- `4xkk` SNE Vx, kk (R88). -/
def execSneImm (x : RegNum) (kk : Byte) (s : State) : Result := .next (s.skipIf (s.reg x != kk))

/-- `5xy0` SE Vx, Vy (R89). -/
def execSeReg (x y : RegNum) (s : State) : Result := .next (s.skipIf (s.reg x == s.reg y))

/-- `9xy0` SNE Vx, Vy (R90). -/
def execSneReg (x y : RegNum) (s : State) : Result := .next (s.skipIf (s.reg x != s.reg y))

/-- `Bnnn` JP V0, nnn (R91): the 16-bit sum, not reduced to 12 bits. -/
def execJpV0 (nnn : Addr12) (s : State) : Result :=
  .next { s with pc := zextAddr nnn + (s.reg 0).setWidth 16 }

end Sys2Proof.Machine
end

