-- ==== Sys2Proof/Machine/Drawing.lean ====
section
/-! DEFINITION. The meanings of the display instructions (spec/44_display.md). -/

namespace Sys2Proof.Machine

/-- `00E0` CLS (R113). -/
def execCls (s : State) : Result := .next { s with disp := Display.clear }

/-- The drawing of `Dxyn` once its sprite bytes are read: the origin is `(V[x] mod 64, V[y] mod 32)` (R115), read before
VF is written (R15); VF is the collision. -/
def State.drawSprite (s : State) (x y : RegNum) (rows : List Byte) : State :=
  let points := spritePoints s.cfg.spriteEdge ((s.reg x).toNat % 64) ((s.reg y).toNat % 32) rows
  let drawn := drawPoints s.disp false points
  { s with disp := drawn.1 }.setReg VF (if drawn.2 then 1 else 0)

/-- `Dxyn` DRW Vx, Vy, n (R114, by its pseudocode: DEDUCED, log entry 7). -/
def execDrw (x y : RegNum) (n : Nibble) (s : State) : Result :=
  withChecked s (s.indexAddrs n.toNat) fun addrs => .next (s.drawSprite x y (addrs.map s.readByte))

end Sys2Proof.Machine
end

