-- ==== Sys2Proof/Machine/IndexMemory.lean ====
section
/-! DEFINITION. The meanings of the index register, stores and loads (spec/43_index_memory.md). None changes `I` as a side
effect and none writes a flag. -/

namespace Sys2Proof.Machine

/-- `Annn` LD I, nnn (R106). -/
def execLdI (nnn : Addr12) (s : State) : Result := .next { s with I := zextAddr nnn }

/-- `Fx1E` ADD I, Vx (R107): modulo 65536, no flag. -/
def execAddI (x : RegNum) (s : State) : Result := .next { s with I := s.I + (s.reg x).setWidth 16 }

/-- `Fx29` LD F, Vx (R108). -/
def execLdF (x : RegNum) (s : State) : Result := .next { s with I := glyphAddr (s.reg x) }

/-- `Fx33` LD B, Vx (R109). -/
def execLdB (x : RegNum) (s : State) : Result :=
  withChecked s (s.indexAddrs 3) fun addrs => .next (s.storeBytes (addrs.zip (bcdDigits (s.reg x))))

/-- `Fx55` LD [I], Vx (R110). -/
def execStoreRegs (x : RegNum) (s : State) : Result :=
  withChecked s (s.indexAddrs (x.val + 1)) fun addrs => .next (s.storeBytes (addrs.zip (s.regsUpTo x)))

/-- `Fx65` LD Vx, [I] (R111): every byte is read before any register is written. -/
def execLoadRegs (x : RegNum) (s : State) : Result :=
  withChecked s (s.indexAddrs (x.val + 1)) fun addrs => .next (s.setRegs (addrs.map s.readByte))

end Sys2Proof.Machine
end

