-- ==== Sys2Proof/Machine/TimersInput.lean ====
section
/-! DEFINITION. The meanings of the key and timer instructions (spec/45_timers_input.md). The keys are those the host last
wrote, and the timers have not yet ticked for this cycle. -/

namespace Sys2Proof.Machine

/-- `Ex9E` SKP Vx (R119). -/
def execSkp (x : RegNum) (s : State) : Result := .next (s.skipIf (s.keyPressed (keyIndex (s.reg x))))

/-- `ExA1` SKNP Vx (R120). -/
def execSknp (x : RegNum) (s : State) : Result := .next (s.skipIf (!s.keyPressed (keyIndex (s.reg x))))

/-- `Fx07` LD Vx, DT (R121). -/
def execLdVxDt (x : RegNum) (s : State) : Result := .next (s.setReg x s.DT)

/-- `Fx0A` LD Vx, K (R122): with no key pressed the advance is undone and the next cycle fetches this instruction again. -/
def execLdVxK (x : RegNum) (s : State) : Result :=
  match s.firstKey with
  | some k => .next (s.setReg x (BitVec.ofNat 8 k.val))
  | none => .next { s with pc := s.cpc }

/-- `Fx15` LD DT, Vx (R123). -/
def execLdDtVx (x : RegNum) (s : State) : Result := .next { s with DT := s.reg x }

/-- `Fx18` LD ST, Vx (R124). -/
def execLdStVx (x : RegNum) (s : State) : Result := .next { s with ST := s.reg x }

end Sys2Proof.Machine
end

