-- ==== Sys2Proof/Machine/Unknown.lean ====
section
/-! DEFINITION. The meaning of the words that match no shape (spec/40_cycle.md rule R66). -/

namespace Sys2Proof.Machine

/-- UNKNOWN (R66): a no-op, "pc already advanced, no state change". -/
def execUnknown (_w : Word) (s : State) : Result := .next s

end Sys2Proof.Machine
end

