-- ==== Sys2Proof/Machine/Step.lean ====
section
/-! DEFINITION. One cycle (spec/40_cycle.md rules R61, R73), and how the host's checks put an instruction where the next
cycle fetches it. -/

namespace Sys2Proof.Machine

/-- One cycle: fetch, advance, decode and execute, tick, set `ir`. An error commits nothing (R68): it carries no state, and
the state before the cycle stands. -/
def step (s : State) : Host.Outcome State Fault Refusal :=
  match s.fetch with
  | .error f => .fault f
  | .ok w =>
    match exec (decodeWord w) s.advance with
    | .next t => .next (t.complete w)
    | .fault f => .fault f
    | .refused r => .refused r

/-- `s` with the word of a table row stored at `pc`, where the next cycle fetches it (DESIGN CHOICE, log entry 2). -/
def State.withFetchWord (s : State) (nbits w : Nat) : State := s.placeWord (tableWord nbits w)

end Sys2Proof.Machine
end

