-- ==== Sys2Proof/Machine/HostOps.lean ====
section
/-! DEFINITION. The operations the host performs on the block, between cycles only (spec/40_cycle.md rules R74 to R81), and
the status it gets back (spec/60_exceptions.md rule R125). -/

namespace Sys2Proof.Machine

/-- The status of an operation (R125). `unmodelled` stands for a refusal of the model, which no cycle answers (DESIGN
CHOICE, log entry 9). -/
inductive Status where
  | ok
  | error (f : Fault)
  | romTooLarge
  | unmodelled (r : Refusal)
deriving DecidableEq, Repr

/-- The numeric codes of R125; the model's own `unmodelled` has none. -/
def statusCode : Status → Option Nat
  | .ok => some 0
  | .error (.stackOverflow _) => some 1
  | .error (.stackUnderflow _) => some 2
  | .error (.addressOutOfRange _ _) => some 3
  | .error (.pcMisaligned _) => some 4
  | .error (.pcOutOfRange _) => some 5
  | .romTooLarge => some 6
  | .unmodelled _ => none

/-- The longest ROM: 0x1000 − 0x200 = 3584 bytes (R78). -/
def maxRomLength : Nat := 3584

/-- What `Introspect` returns for a requested range of memory (R80). -/
structure Introspection where
  V      : List Byte
  I      : Word
  pc     : Word
  DT     : Byte
  ST     : Byte
  sp     : BitVec 8
  /-- The live entries only, oldest first (R23). -/
  stack  : List Word
  /-- The bytes of the requested range. -/
  memory : List Byte
  ir     : Word
deriving DecidableEq, Repr

/-- An operation of R74 with its inputs. -/
inductive HostOp where
  | reset
  | loadRom (bytes : List Byte)
  | writeKeys (keys : Vector Bool 16)
  | cycle (input : CycleInput)
  | readDisplay
  | readTimers
  | introspect (lo len : Nat)
deriving DecidableEq, Repr

/-- What an operation returns (R74). -/
inductive HostReply where
  | done
  | status (st : Status)
  | display (grid : Display)
  | timers (dt st : Byte)
  | introspection (i : Introspection)
deriving DecidableEq, Repr

/-- `Reset` (R140): the state of R32. The parameters are not state, and what the host has yet to supply is the host's
(DESIGN CHOICE, log entry 13). -/
def opReset (s : State) : State :=
  { State.resetWith s.cfg with inputs := s.inputs, draws := s.draws }

/-- Copy bytes into memory from address `a` on. -/
def copyBytes (s : State) (a : Nat) : List Byte → State
  | [] => s
  | b :: rest => copyBytes (s.writeByte a b) (a + 1) rest

/-- `LoadRom` (R78): a stream longer than 3584 bytes is refused and changes nothing. -/
def opLoadRom (bytes : List Byte) (s : State) : State × Status :=
  if bytes.length > maxRomLength then (s, .romTooLarge) else (copyBytes s 0x200 bytes, .ok)

/-- `WriteKeys` (R76). -/
def opWriteKeys (keys : Vector Bool 16) (s : State) : State := { s with key := keys }

/-- `Cycle` (R73) with the inputs the host supplies for it: an error leaves the state as it was (R68). -/
def opCycle (input : CycleInput) (s : State) : State × Status :=
  match step { s with inputs := input :: s.inputs } with
  | .next t => (t, .ok)
  | .fault f => (s, .error f)
  | .refused r => (s, .unmodelled r)

/-- `ReadDisplay` (R77). -/
def opReadDisplay (s : State) : Display := s.disp

/-- `ReadTimers` (R79). -/
def opReadTimers (s : State) : Byte × Byte := (s.DT, s.ST)

/-- `Introspect` (R80), with the bytes of memory from address `a` on, `len` of them, as far as memory goes
(DESIGN CHOICE, log entry 12). -/
def opIntrospect (a len : Nat) (s : State) : Introspection where
  V := s.V.toList
  I := s.I
  pc := s.pc
  DT := s.DT
  ST := s.ST
  sp := s.sp
  stack := s.stack.toList.take s.sp.toNat
  memory := (((List.range len).map (a + ·)).filter (· < memSize)).map s.readByte
  ir := s.ir

/-- One host operation: the state it leaves and what it returns (R74). -/
def hostOp (op : HostOp) (s : State) : State × HostReply :=
  match op with
  | .reset => (opReset s, .done)
  | .loadRom bytes => ((opLoadRom bytes s).1, .status (opLoadRom bytes s).2)
  | .writeKeys keys => (opWriteKeys keys s, .done)
  | .cycle input => ((opCycle input s).1, .status (opCycle input s).2)
  | .readDisplay => (s, .display (opReadDisplay s))
  | .readTimers => (s, .timers (opReadTimers s).1 (opReadTimers s).2)
  | .introspect lo len => (s, .introspection (opIntrospect lo len s))

/-- The state after a sequence of host operations, which is every way the outside world drives the block (R75). -/
def hostRun (ops : List HostOp) (s : State) : State := ops.foldl (fun t op => (hostOp op t).1) s

end Sys2Proof.Machine
end

