-- ==== Sys2Proof/Safety.lean ====
section
/-! DEFINITION. What claims are stated in: the invariant of the machine, when a fetch and an instruction complete, and which
parts of two states agree. -/

namespace Sys2Proof.Machine

/-- The invariant: memory is canonical and lists no byte of the font, which therefore reads as `FONT` (R33, R44); `sp` is a
legal number of live entries (R22); the entries past `STACK_DEPTH`, which the call stack does not have, are as at reset. -/
structure State.Inv (s : State) : Prop where
  memory_wf : Memory.wf s.cfg.font s.memory
  font_unlisted : ∀ p ∈ s.memory, ¬ InFont p.1
  sp_le : s.sp.toNat ≤ s.cfg.stackDepth
  stack_tail : ∀ j, s.cfg.stackDepth ≤ j → s.stackEntry j = 0

/-- The fetch raises no error (R63). -/
def State.Fetchable (s : State) : Prop :=
  ¬ (s.cfg.pcAlignCheck = true ∧ s.pc.toNat % 2 = 1) ∧ ¬ (s.cfg.addrMode = .fault ∧ 0xFFE < s.pc.toNat)

/-- The word at `pc`, most significant byte first (R36): what the fetch reads when it raises nothing. -/
def State.wordAtPc (s : State) : Word :=
  wordOfBytes (s.readByte (s.pc.toNat % 0x1000)) (s.readByte ((s.pc.toNat + 1) % 0x1000))

/-- Every one of the `n` data addresses from `I` on passes the check of R42. -/
def State.Reaches (s : State) (n : Nat) : Prop := s.cfg.addrMode = .wrap ∨ s.I.toNat + n ≤ 0x1000 ∨ n = 0

/-- How many bytes of data an instruction accesses, from `I` on (R40). -/
def dataBytes : Instr → Nat
  | .drw _ _ n => n.toNat
  | .ldB _ => 3
  | .storeRegs x => x.val + 1
  | .loadRegs x => x.val + 1
  | _ => 0

/-- The instruction raises no error on this state (R129): CALL has room, RET has an entry, and the data accessed is in
reach. (An `sp` past `STACK_DEPTH` counts as no room and as an entry: DESIGN CHOICE, log entry 6.) -/
def Completes (i : Instr) (s : State) : Prop :=
  match i with
  | .call _ => s.sp.toNat < s.cfg.stackDepth
  | .ret => s.sp ≠ 0
  | i => s.Reaches (dataBytes i)

/-- A safe cycle: it ends with status `Ok`. -/
def SafeStep (s : State) : Prop := ∃ t, step s = .next t

/-- Every word that matches `m` under the mask `k` decodes to the instruction `f` makes of its fields. -/
def DecodesAs (m k : Word) (f : Word → Instr) : Prop := ∀ w : Word, w &&& k = m → decodeWord w = f w

/-! ### Frames -/

/-- Every byte of memory reads the same in both states. -/
def SameMemory (s t : State) : Prop := ∀ a, t.readByte a = s.readByte a

/-- Every general register but `x` is the same in both states. -/
def SameRegsBut (x : RegNum) (s t : State) : Prop := ∀ r, r ≠ x → t.reg r = s.reg r

/-- The instruction completes, Vx is then `v`, and nothing else has changed: no other register, no other field of the
state, no byte of memory. -/
def SetsReg (i : Instr) (s : State) (x : RegNum) (v : Byte) : Prop :=
  ∃ t, exec i s = .next t ∧ t.reg x = v ∧ SameRegsBut x s t ∧ t = { s with V := t.V } ∧ SameMemory s t

/-- The instruction completes, VF is then the flag, Vx the result unless it is VF, and nothing else has changed. -/
def SetsRegAndFlag (i : Instr) (s : State) (x : RegNum) (v : Nat) (flag : Prop) : Prop :=
  ∃ t, exec i s = .next t ∧ (flag → t.reg VF = 1) ∧ (¬ flag → t.reg VF = 0) ∧ (x ≠ VF → (t.reg x).toNat = v) ∧
    (∀ r, r ≠ x → r ≠ VF → t.reg r = s.reg r) ∧ t = { s with V := t.V } ∧ SameMemory s t

/-- The instruction completes, `pc` is then `p`, and nothing else has changed. -/
def SetsPc (i : Instr) (s : State) (p : Nat) : Prop :=
  ∃ t, exec i s = .next t ∧ t.pc.toNat = p ∧ t = { s with pc := t.pc } ∧ SameMemory s t

/-- The instruction completes, `I` is then `v`, and nothing else has changed. -/
def SetsIndex (i : Instr) (s : State) (v : Nat) : Prop :=
  ∃ t, exec i s = .next t ∧ t.I.toNat = v ∧ t = { s with I := t.I } ∧ SameMemory s t

/-- The registers an instruction may write: its destination, and VF for the six that write it as a flag (R14). -/
def MayWrite (i : Instr) (r : RegNum) : Prop :=
  match i with
  | .ldImm x _ | .addImm x _ | .rnd x _ => r = x
  | .ldReg x _ | .orReg x _ | .andReg x _ | .xorReg x _ => r = x
  | .addReg x _ | .sub x _ | .shr x _ | .subn x _ | .shl x _ => r = x ∨ r = VF
  | .drw _ _ _ => r = VF
  | .ldVxDt x | .ldVxK x => r = x
  | .loadRegs x => r ≤ x
  | _ => False

/-- The instruction writes VF as a flag (R14). -/
def WritesFlag : Instr → Prop
  | .addReg _ _ | .sub _ _ | .shr _ _ | .subn _ _ | .shl _ _ | .drw _ _ _ => True
  | _ => False

/-- The instruction is a control transfer, a skip or the key wait: it may leave `pc` elsewhere than at the next word. -/
def MayMovePc : Instr → Prop
  | .ret | .jp _ | .call _ | .jpV0 _ => True
  | .seImm _ _ | .sneImm _ _ | .seReg _ _ | .sneReg _ _ | .skp _ | .sknp _ | .ldVxK _ => True
  | _ => False

/-- Apply `f` to the state an outcome holds. -/
def mapNext (f : State → State) : Result → Result
  | .next t => .next (f t)
  | .fault e => .fault e
  | .refused r => .refused r

/-! ### Stores -/

/-- The instruction stores the byte `b` at address `a`: `a` is one of its checked addresses, outside the font, and `b` the
decimal digit (R109) or the register (R110) that belongs there. -/
def StoresAt (i : Instr) (s : State) (a : Nat) (b : Byte) : Prop :=
  ¬ InFont a ∧ match i with
    | .ldB x => ∃ k < 3, checkAddr s.cfg.addrMode (s.I.toNat + k) = .ok a ∧
        b.toNat = (s.reg x).toNat / 10 ^ (2 - k) % 10
    | .storeRegs x => ∃ r : RegNum, r ≤ x ∧ checkAddr s.cfg.addrMode (s.I.toNat + r.val) = .ok a ∧ b = s.reg r
    | _ => False

/-- What the cycle from `s` stores: what the instruction at `pc` does after the advance. -/
def CycleStoresAt (s : State) (a : Nat) (b : Byte) : Prop := StoresAt (decodeWord s.wordAtPc) s.advance a b

/-! ### Drawing -/

/-- Some set bit of the sprite falls on the pixel at row `r`, column `c` (R114 to R117), in the words of R114's
pseudocode. -/
def SpriteCovers (s : State) (x y : RegNum) (n : Nibble) (r : Fin 32) (c : Fin 64) : Prop :=
  ∃ k < n.toNat, ∃ b < 8, ∃ a, checkAddr s.cfg.addrMode (s.I.toNat + k) = .ok a ∧
    (s.readByte a).getLsbD (7 - b) = true ∧
    match s.cfg.spriteEdge with
    | .clip => c.val = (s.reg x).toNat % 64 + b ∧ r.val = (s.reg y).toNat % 32 + k
    | .wrap => c.val = ((s.reg x).toNat % 64 + b) % 64 ∧ r.val = ((s.reg y).toNat % 32 + k) % 32

end Sys2Proof.Machine
end

