-- ==== Sys2Proof/Certificates/Slice0/Obligations.lean ====
section
/-! DEFINITION. The statements about the model, each a rule of the spec or built from several. Frames are written
`t = { s with f := t.f }`: the two states agree in every field but `f`. An instruction's rule speaks of the state `exec`
is given, in which `pc` has already advanced (R64); a cycle's of the state before the fetch. -/

open Sys2Proof Sys2Proof.Machine

/-! ### Encoding (spec/30_encoding.md) -/

/-- One word of each format, from the shapes of R55 and the fields of R53. -/
def Obligations.WordsOfEachFormatDecode : Prop :=
  decodeWord 0x00E0 = .cls ∧ decodeWord 0x00EE = .ret ∧ decodeWord 0x1234 = .jp 0x234 ∧
  decodeWord 0x2ABC = .call 0xABC ∧ decodeWord 0x3F42 = .seImm 15 0x42 ∧ decodeWord 0x9120 = .sneReg 1 2 ∧
  decodeWord 0x8A5E = .shl 10 5 ∧ decodeWord 0x8A54 = .addReg 10 5 ∧ decodeWord 0xA123 = .ldI 0x123 ∧
  decodeWord 0xC50F = .rnd 5 0x0F ∧ decodeWord 0xD12F = .drw 1 2 15 ∧ decodeWord 0xE1A1 = .sknp 1 ∧
  decodeWord 0xF733 = .ldB 7 ∧ decodeWord 0x5121 = .unknown 0x5121 ∧ decodeWord 0x0000 = .unknown 0x0000

/-- Decoding the bytes of a well-formed instruction gives it back, with every operand, whatever bytes follow. -/
def Obligations.DecodeOfEncodeIsTheInstruction : Prop :=
  ∀ (i : Instr) (rest : List Byte), i.wf = true →
    decodeWord (encodeWord i) = i ∧ decode (encode i ++ rest) = .ok (i, rest)

/-- Every word decodes, to a well-formed instruction, and encodes to itself again: the decoder never fails and drops no bit
(R53). -/
def Obligations.EncodeOfDecodeIsTheWord : Prop :=
  ∀ w : Word, (decodeWord w).wf = true ∧ encodeWord (decodeWord w) = w

/-- R55: the decoder gives the instruction of the row the word matches under the row's mask; the rows are pairwise
disjoint, and a word that matches no row is UNKNOWN. -/
def Obligations.DecoderSelectsTheMatchingRow : Prop :=
  (∀ w : Word, ∀ row ∈ opcodeRows, (w &&& row.2.2 = row.2.1 ↔ rowNumber (decodeWord w) = row.1)) ∧
  (∀ w : Word, ∀ p ∈ opcodeRows, ∀ q ∈ opcodeRows, w &&& p.2.2 = p.2.1 → w &&& q.2.2 = q.2.1 → p = q) ∧
  (∀ w : Word, decodeWord w = .unknown w ↔ ∀ row ∈ opcodeRows, w &&& row.2.2 ≠ row.2.1)

/-- The unknown words are those of the groups of R57's table (a rule the spec derives from R55). -/
def Obligations.UnknownWordsAreThoseOfTheGroups : Prop :=
  ∀ w : Word, isUnknownWord w = true ↔ ∀ row ∈ opcodeRows, matchesRow w row = false

/-! ### The cycle (spec/40_cycle.md) -/

/-- A cycle runs the decoded instruction: when `pc` passes the checks of the fetch and the two bytes there decode to `i`,
`step` is `exec i` on the state with `pc` advanced by 2, and then the timers tick on what the instruction left, `ir` takes
the word and the cycle's inputs are used up (the queue they come from: DESIGN CHOICE, log entry 1); an error of the
instruction is the cycle's. -/
def Obligations.StepRunsTheDecodedInstruction : Prop :=
  ∀ (s : State) (i : Instr), s.Fetchable →
    decode [s.readByte (s.pc.toNat % 0x1000), s.readByte ((s.pc.toNat + 1) % 0x1000)] = .ok (i, []) →
    (∀ u, exec i { s with pc := s.pc + 2 } = .next u → step s = .next (u.complete s.wordAtPc)) ∧
    (∀ f, exec i { s with pc := s.pc + 2 } = .fault f → step s = .fault f)

/-- The end of a cycle: `DT` and `ST` go down by 1, stopping at 0, from the values the instruction left, exactly when the
cycle's `tick` is true; `ir` is the word fetched; all else is as the instruction left it. (R67 and R69 rest on the spec's
decisions D15 and D26.) The last clause, that the cycle takes the first input of the queue `inputs`, leaves the rest and
counts no free input, is the model's own: DESIGN CHOICE, log entry 1. -/
def Obligations.TimersTickAfterTheInstruction : Prop :=
  ∀ s u : State, s.Fetchable → exec (decodeWord s.wordAtPc) s.advance = .next u →
    ∃ t, step s = .next t ∧
      t.DT.toNat = (if s.input.tick = true then u.DT.toNat - 1 else u.DT.toNat) ∧
      t.ST.toNat = (if s.input.tick = true then u.ST.toNat - 1 else u.ST.toNat) ∧
      t.ir = s.wordAtPc ∧
      t = { u with DT := t.DT, ST := t.ST, ir := t.ir, inputs := t.inputs, draws := t.draws } ∧
      (∀ i rest, s.inputs = i :: rest → s.input = i ∧ t.inputs = rest ∧ t.draws = s.draws)

/-- The checks of the fetch, in their order: an odd `pc` when `PC_ALIGN_CHECK`, then a `pc` past 0xFFE in `fault` mode; with
neither, the fetch raises nothing. (R63 and R129 rest on the spec's decisions D9, D10 and D29.) -/
def Obligations.FetchChecksPcInOrder : Prop :=
  ∀ s : State,
    (s.cfg.pcAlignCheck = true → s.pc.toNat % 2 = 1 → step s = .fault (.pcMisaligned s.pc)) ∧
    (¬ (s.cfg.pcAlignCheck = true ∧ s.pc.toNat % 2 = 1) → s.cfg.addrMode = .fault → 0xFFE < s.pc.toNat →
      step s = .fault (.pcOutOfRange s.pc)) ∧
    (s.Fetchable → ∃ w, s.fetch = .ok w)

/-- R36: the fetch is big-endian, the byte at `pc` in bits 15:8 and the next one in bits 7:0, whatever the state. -/
def Obligations.FetchIsBigEndian : Prop :=
  ∀ (s : State) (w : Word), s.fetch = .ok w →
    w.toNat = 256 * (s.readByte (s.pc.toNat % 0x1000)).toNat + (s.readByte ((s.pc.toNat + 1) % 0x1000)).toNat

/-- R66: an UNKNOWN instruction completes and changes nothing, and a cycle on an unknown word completes with `pc` advanced
by 2, the timers ticked if `tick`, `ir` set, and no other change. -/
def Obligations.UnknownWordIsANoOp : Prop :=
  (∀ (s : State) (w : Word), exec (.unknown w) s = .next s) ∧
  ∀ s : State, s.Fetchable → (∀ row ∈ opcodeRows, s.wordAtPc &&& row.2.2 ≠ row.2.1) →
    ∃ t, step s = .next t ∧ t.pc.toNat = (s.pc.toNat + 2) % 65536 ∧ t.ir = s.wordAtPc ∧
      t.DT.toNat = (if s.input.tick = true then s.DT.toNat - 1 else s.DT.toNat) ∧
      t.ST.toNat = (if s.input.tick = true then s.ST.toNat - 1 else s.ST.toNat) ∧
      t = { s with pc := t.pc, DT := t.DT, ST := t.ST, ir := t.ir, inputs := t.inputs, draws := t.draws } ∧
      SameMemory s t

/-- A cycle ends with `Ok` exactly when `pc` passes the checks of the fetch and the instruction there raises nothing. (The
checks rest on the spec's decisions D9 and D10. With an `sp` past `STACK_DEPTH`, which R22 excludes, CALL raises and RET
completes: DESIGN CHOICE, log entry 6.) -/
def Obligations.CycleCompletesExactlyWhen : Prop :=
  ∀ s : State, SafeStep s ↔ s.Fetchable ∧ Completes (decodeWord s.wordAtPc) s.advance

/-! ### Errors (spec/60_exceptions.md) -/

/-- Every instruction completes or raises its own error: it completes exactly when `Completes`, and is never refused.
(The address check rests on the spec's decision D9. With an `sp` past `STACK_DEPTH`, which R22 excludes, CALL raises and RET
completes: DESIGN CHOICE, log entry 6.) -/
def Obligations.InstructionCompletesExactlyWhen : Prop :=
  ∀ (i : Instr) (s : State),
    ((∃ t, exec i s = .next t) ↔ Completes i s) ∧ (∀ r, exec i s ≠ .refused r)

/-- No instruction raises two kinds of error: CALL only `StackOverflow`, RET only `StackUnderflow`, the four that access data
only `AddressOutOfRange`, and all others nothing; each reports the address of the instruction. (R129 rests on the spec's
decision D29.) -/
def Obligations.InstructionFaultsOnlyAsListed : Prop :=
  ∀ (i : Instr) (s : State) (f : Fault), exec i s = .fault f →
    ((∃ nnn, i = .call nnn) ∧ f = .stackOverflow (s.pc - 2)) ∨
    (i = .ret ∧ f = .stackUnderflow (s.pc - 2)) ∨
    (dataBytes i ≠ 0 ∧ ∃ a, f = .addressOutOfRange (s.pc - 2) a)

/-- An access past memory in `fault` mode raises `AddressOutOfRange` with the lowest failing address. (R42, R43 and R129 rest
on the spec's decisions D9 and D29.) -/
def Obligations.DataAccessRaisesAtTheLowestAddress : Prop :=
  ∀ (i : Instr) (s : State) (k : Nat), s.cfg.addrMode = .fault → k < dataBytes i → 0xFFF < s.I.toNat + k →
    (∀ j < k, s.I.toNat + j ≤ 0xFFF) → exec i s = .fault (.addressOutOfRange (s.pc - 2) (s.I.toNat + k))

/-- An error commits nothing: the state after the host's `Cycle` is the state before it in every field, and calling it again,
with whatever inputs, returns the same error. (R68 and R128 rest on the spec's decision D8.) -/
def Obligations.ErrorCycleCommitsNothing : Prop :=
  ∀ (s : State) (inp : CycleInput) (f : Fault), (opCycle inp s).2 = .error f →
    (opCycle inp s).1 = s ∧ ∀ inp', (opCycle inp' s).2 = .error f

/-! ### Reset and the invariant (spec/10_state.md section 13, spec/70_reset_and_hazards.md) -/

/-- The state after reset: the values of R32's table. Those but `pc`, `sp` and the font are the spec's own choice, its
decision D5 (`ir`: D26); the font's bytes are those of R39 (D1). -/
def Obligations.ResetLeavesTheTabledValues : Prop :=
  State.reset.pc = 0x0200 ∧ State.reset.sp = 0 ∧ State.reset.I = 0 ∧ State.reset.DT = 0 ∧ State.reset.ST = 0 ∧
  State.reset.ir = 0 ∧ (∀ r, State.reset.reg r = 0) ∧ (∀ j, State.reset.stackEntry j = 0) ∧
  (∀ k, State.reset.keyPressed k = false) ∧ (∀ r c, State.reset.disp.pixel r c = false) ∧
  (∀ a, ¬ InFont a → State.reset.readByte a = 0) ∧
  (∀ (k : Nat) (h : k < 80), State.reset.readByte (0x050 + k) = defaultFont[k]) ∧
  State.reset.cfg.stackDepth = 16 ∧ State.reset.cfg.spriteEdge = .clip ∧ State.reset.cfg.addrMode = .fault ∧
  State.reset.cfg.pcAlignCheck = true

/-- The invariant holds after reset, for every value of the parameters. -/
def Obligations.ResetMeetsTheInvariant : Prop := ∀ cfg : Config, (State.resetWith cfg).Inv

/-- Every cycle that completes keeps the invariant. -/
def Obligations.StepKeepsTheInvariant : Prop := ∀ s t : State, s.Inv → step s = .next t → t.Inv

/-- Whatever the host does, in whatever order and with whatever inputs, the invariant holds and the parameters stay. -/
def Obligations.HostOperationsKeepTheInvariant : Prop :=
  ∀ (ops : List HostOp) (s : State), s.Inv → (hostRun ops s).Inv ∧ (hostRun ops s).cfg = s.cfg

/-- The font is read-only after initialisation: after any host operations from reset, every byte of 0x050 to 0x09F is the
byte of `FONT`. (R44 rests on the spec's decision D11.) -/
def Obligations.FontIsNeverChanged : Prop :=
  (∀ s t : State, step s = .next t → ∀ a, InFont a → t.readByte a = s.readByte a) ∧
  ∀ (ops : List HostOp) (k : Nat) (h : k < 80), (hostRun ops State.reset).readByte (0x050 + k) = defaultFont[k]

/-- Two canonical memories that read the same at every address are the same memory. -/
def Obligations.CanonicalMemoriesThatReadAlikeAreEqual : Prop :=
  ∀ (font : Vector Byte 80) (m m' : Memory), Memory.wf font m → Memory.wf font m' →
    (∀ a, Memory.read font m a = Memory.read font m' a) → m = m'

/-! ### Whole-machine rules -/

/-- The special registers and the call stack are written only by their instructions (the table of R28; R21, R24): `I` by
`Annn`, `Fx1E`, `Fx29`; the stack and `sp` by CALL and RET, CALL alone writing an entry; `DT` by `Fx15`; `ST` by `Fx18`; `pc`
by control transfer, skips and `Fx0A`. -/
def Obligations.SpecialRegistersHaveTheirWriters : Prop :=
  ∀ (i : Instr) (s t : State), exec i s = .next t →
    (t.I ≠ s.I → (∃ a, i = .ldI a) ∨ ∃ x, i = .addI x ∨ i = .ldF x) ∧
    (t.sp ≠ s.sp → i = .ret ∨ ∃ a, i = .call a) ∧
    (t.stack ≠ s.stack → ∃ a, i = .call a) ∧
    (t.DT ≠ s.DT → ∃ x, i = .ldDtVx x) ∧
    (t.ST ≠ s.ST → ∃ x, i = .ldStVx x) ∧
    (t.pc ≠ s.pc → MayMovePc i)

/-- The display is written only by `00E0` and `Dxyn` (R26), memory only by `Fx33` and `Fx55` and only at addresses 0x000 to
0xFFF outside the font (R40, R44), and the keys, the parameters and `ir` by no instruction (R25, R31). -/
def Obligations.DisplayMemoryAndKeysHaveTheirWriters : Prop :=
  ∀ (i : Instr) (s t : State), exec i s = .next t →
    (t.disp ≠ s.disp → i = .cls ∨ ∃ x y n, i = .drw x y n) ∧
    (∀ a, t.readByte a ≠ s.readByte a → (∃ x, i = .ldB x ∨ i = .storeRegs x) ∧ a < 0x1000 ∧ ¬ InFont a) ∧
    t.key = s.key ∧ t.cfg = s.cfg ∧ t.ir = s.ir ∧ t.inputs = s.inputs ∧ t.draws = s.draws

/-- R14: VF is written as a flag by exactly the six instructions, which leave 0 or 1 in it; every other instruction writes a
register, VF among them, only as its destination. (That VF ends as the flag also when `x = 0xF` rests on the spec's decision
D16, rule R16.) -/
def Obligations.RegistersAreWrittenOnlyAsDestinationOrFlag : Prop :=
  ∀ (i : Instr) (s t : State), exec i s = .next t →
    (∀ r, t.reg r ≠ s.reg r → MayWrite i r) ∧ (WritesFlag i → t.reg VF = 0 ∨ t.reg VF = 1)

/-- Only RND reads the cycle's random byte, and no instruction reads `tick`: every other instruction does the same under any
inputs. (R62 rests on the spec's decisions D14 and D15.) -/
def Obligations.OnlyRndReadsTheInputs : Prop :=
  ∀ (i : Instr) (s : State) (q : List CycleInput) (d : Nat), (∀ x kk, i ≠ .rnd x kk) →
    exec i { s with inputs := q, draws := d } = mapNext (fun t => { t with inputs := q, draws := d }) (exec i s)

/-- No instruction reads `ir` (R31) or the sound timer (R24): with other values in them every instruction does the same, and
leaves them alone but for `Fx18`, which replaces the sound timer. -/
def Obligations.IrAndSoundTimerAreNotRead : Prop :=
  ∀ (i : Instr) (s : State) (w : Word) (v : Byte),
    exec i { s with ir := w, ST := v } =
      mapNext (fun t => { t with ir := w, ST := match i with | .ldStVx _ => t.ST | _ => v }) (exec i s)

/-- No instruction reads a stack entry at or above `sp` (R23): two states that differ only there fail alike, or reach states
that again differ only there. (R23 rests on the spec's decision D27.) -/
def Obligations.StaleStackEntriesAreNotRead : Prop :=
  ∀ (i : Instr) (s : State) (k : Vector Word 16), s.sp.toNat ≤ s.cfg.stackDepth →
    (∀ j < s.sp.toNat, ({ s with stack := k }).stackEntry j = s.stackEntry j) →
    (∀ f, exec i s = .fault f → exec i { s with stack := k } = .fault f) ∧
    (∀ t, exec i s = .next t → ∃ u, exec i { s with stack := k } = .next u ∧ u = { t with stack := u.stack } ∧
      ∀ j < t.sp.toNat, u.stackEntry j = t.stackEntry j)

/-! ### Control transfer (spec/41_control_flow.md) -/

/-- R84: `JP nnn`; the target is not checked when written, and the next fetch reports it. -/
def Obligations.JumpGoesToItsTarget : Prop :=
  DecodesAs 0x1000 0xF000 (fun w => .jp (fieldNNN w)) ∧
  (∀ (s : State) (nnn : Addr12), SetsPc (.jp nnn) s nnn.toNat) ∧
  ∀ (s t : State) (nnn : Addr12), exec (.jp nnn) s = .next t →
    (s.cfg.pcAlignCheck = true → nnn.toNat % 2 = 1 → step t = .fault (.pcMisaligned t.pc)) ∧
    (s.cfg.pcAlignCheck = false → s.cfg.addrMode = .fault → nnn = 0xFFF → step t = .fault (.pcOutOfRange t.pc))

/-- `JP V0, nnn`: the 16-bit sum, not reduced to 12 bits, and always V0. (R91 rests on the spec's decision D24.) -/
def Obligations.JumpV0GoesToTheSum : Prop :=
  ∀ (s : State) (nnn : Addr12), SetsPc (.jpV0 nnn) s (nnn.toNat + (s.reg 0).toNat)

/-- `CALL nnn`: with room on the stack it pushes the advanced `pc` and goes to `nnn`, changing nothing else; on a full stack
it raises `StackOverflow`. -/
def Obligations.CallPushesTheReturnAddress : Prop :=
  ∀ (s : State) (nnn : Addr12),
    (s.sp.toNat < s.cfg.stackDepth → ∃ t, exec (.call nnn) s = .next t ∧ t.pc.toNat = nnn.toNat ∧
      t.sp.toNat = s.sp.toNat + 1 ∧ t.stackEntry s.sp.toNat = s.pc ∧
      (∀ j, j ≠ s.sp.toNat → t.stackEntry j = s.stackEntry j) ∧
      t = { s with pc := t.pc, sp := t.sp, stack := t.stack } ∧ SameMemory s t) ∧
    (s.sp.toNat = s.cfg.stackDepth → exec (.call nnn) s = .fault (.stackOverflow (s.pc - 2)))

/-- R85: `RET` pops the newest return address into `pc` unchecked, leaves the entry as it was, and the next fetch reports an
address it cannot use: an odd one when `PC_ALIGN_CHECK`, else, in `fault` mode, one past 0xFFE. On an empty stack it raises
`StackUnderflow` and the cycle changes nothing. (`sp` is one that R22 allows, which `State.Inv` keeps.) -/
def Obligations.ReturnPopsTheReturnAddress : Prop :=
  DecodesAs 0x00EE 0xFFFF (fun _ => .ret) ∧
  (∀ s : State, s.sp = 0 → exec .ret s = .fault (.stackUnderflow (s.pc - 2))) ∧
  (∀ (s : State) (inp : CycleInput), s.Fetchable → decodeWord s.wordAtPc = .ret → s.sp = 0 →
    opCycle inp s = (s, .error (.stackUnderflow s.pc))) ∧
  (∀ s : State, s.sp ≠ 0 → s.sp.toNat ≤ s.cfg.stackDepth →
    ∃ t, exec .ret s = .next t ∧ t.sp.toNat + 1 = s.sp.toNat ∧ t.pc = s.stackEntry t.sp.toNat ∧ t = { s with pc := t.pc, sp := t.sp } ∧ SameMemory s t) ∧
  ∀ s t : State, s.sp.toNat ≤ s.cfg.stackDepth → exec .ret s = .next t →
    (s.cfg.pcAlignCheck = true → t.pc.toNat % 2 = 1 → step t = .fault (.pcMisaligned t.pc)) ∧
    (¬ (s.cfg.pcAlignCheck = true ∧ t.pc.toNat % 2 = 1) → s.cfg.addrMode = .fault → 0xFFE < t.pc.toNat →
      step t = .fault (.pcOutOfRange t.pc))

/-- CALL then RET restores `pc` to exactly the address following the CALL, from wherever the called code returns, and the
stack to its depth before. -/
def Obligations.ReturnAfterCallRestoresPc : Prop :=
  ∀ (s t : State) (nnn : Addr12) (q : Word), exec (.call nnn) s = .next t →
    ∃ u, exec .ret { t with pc := q } = .next u ∧ u = { s with stack := u.stack } ∧
      ∀ j, j ≠ s.sp.toNat → u.stackEntry j = s.stackEntry j

/-- R87 to R90: the four compare-and-skip instructions. A taken skip adds 2 to the advanced `pc`, modulo 65536; one not taken
leaves it; nothing else changes. `5xyN` and `9xyN` with another `N` are unknown. -/
def Obligations.CompareSkipsTheNextInstruction : Prop :=
  DecodesAs 0x3000 0xF000 (fun w => .seImm (fieldX w) (fieldKK w)) ∧
  DecodesAs 0x4000 0xF000 (fun w => .sneImm (fieldX w) (fieldKK w)) ∧
  DecodesAs 0x5000 0xF00F (fun w => .seReg (fieldX w) (fieldY w)) ∧
  DecodesAs 0x9000 0xF00F (fun w => .sneReg (fieldX w) (fieldY w)) ∧
  (∀ w : Word, w &&& 0xF000 = 0x5000 ∨ w &&& 0xF000 = 0x9000 → w &&& 0x000F ≠ 0 → decodeWord w = .unknown w) ∧
  ∀ (s : State) (x y : RegNum) (kk : Byte),
    SetsPc (.seImm x kk) s (if s.reg x = kk then (s.pc.toNat + 2) % 65536 else s.pc.toNat) ∧
    SetsPc (.sneImm x kk) s (if s.reg x ≠ kk then (s.pc.toNat + 2) % 65536 else s.pc.toNat) ∧
    SetsPc (.seReg x y) s (if s.reg x = s.reg y then (s.pc.toNat + 2) % 65536 else s.pc.toNat) ∧
    SetsPc (.sneReg x y) s (if s.reg x ≠ s.reg y then (s.pc.toNat + 2) % 65536 else s.pc.toNat)

/-! ### Registers and arithmetic (spec/42_alu.md) -/

/-- R94 to R99: register loads, `7xkk` and the bitwise instructions, none of which writes a flag. -/
def Obligations.LoadsAndLogicSetOnlyTheirDestination : Prop :=
  DecodesAs 0x6000 0xF000 (fun w => .ldImm (fieldX w) (fieldKK w)) ∧
  DecodesAs 0x7000 0xF000 (fun w => .addImm (fieldX w) (fieldKK w)) ∧
  DecodesAs 0x8000 0xF00F (fun w => .ldReg (fieldX w) (fieldY w)) ∧
  DecodesAs 0x8001 0xF00F (fun w => .orReg (fieldX w) (fieldY w)) ∧
  DecodesAs 0x8002 0xF00F (fun w => .andReg (fieldX w) (fieldY w)) ∧
  DecodesAs 0x8003 0xF00F (fun w => .xorReg (fieldX w) (fieldY w)) ∧
  ∀ (s : State) (x y : RegNum) (kk : Byte),
    SetsReg (.ldImm x kk) s x kk ∧
    (∃ v, SetsReg (.addImm x kk) s x v ∧ v.toNat = ((s.reg x).toNat + kk.toNat) % 256) ∧
    SetsReg (.ldReg x y) s x (s.reg y) ∧
    (∃ v, SetsReg (.orReg x y) s x v ∧
      ∀ b < 8, v.getLsbD b = ((s.reg x).getLsbD b || (s.reg y).getLsbD b)) ∧
    (∃ v, SetsReg (.andReg x y) s x v ∧
      ∀ b < 8, v.getLsbD b = ((s.reg x).getLsbD b && (s.reg y).getLsbD b)) ∧
    (∃ v, SetsReg (.xorReg x y) s x v ∧
      ∀ b < 8, v.getLsbD b = ((s.reg x).getLsbD b ^^ (s.reg y).getLsbD b))

/-- `8xy4`, `8xy5`, `8xy7`: the result modulo 256 and the carry or "no borrow", both from the operands before any write; with
`x = 0xF`, VF ends as the flag. (R100, R101 and R103 rest on the spec's decision D16 for that last point.) -/
def Obligations.AddAndSubtractSetResultAndFlag : Prop :=
  ∀ (s : State) (x y : RegNum),
    SetsRegAndFlag (.addReg x y) s x (((s.reg x).toNat + (s.reg y).toNat) % 256)
      (255 < (s.reg x).toNat + (s.reg y).toNat) ∧
    SetsRegAndFlag (.sub x y) s x (((s.reg x).toNat + 256 - (s.reg y).toNat) % 256)
      ((s.reg y).toNat ≤ (s.reg x).toNat) ∧
    SetsRegAndFlag (.subn x y) s x (((s.reg y).toNat + 256 - (s.reg x).toNat) % 256)
      ((s.reg x).toNat ≤ (s.reg y).toNat)

/-- `8xy6`, `8xyE`: Vx shifted by one and VF the bit shifted out, whatever the `y` field; with `x = 0xF`, VF ends as the bit.
(R102 and R104 rest on the spec's decision D16 for that last point.) -/
def Obligations.ShiftsSetResultAndFlag : Prop :=
  ∀ (s : State) (x y : RegNum),
    SetsRegAndFlag (.shr x y) s x ((s.reg x).toNat / 2) ((s.reg x).toNat % 2 = 1) ∧
    SetsRegAndFlag (.shl x y) s x (2 * (s.reg x).toNat % 256) (128 ≤ (s.reg x).toNat)

/-- `Cxkk`: Vx is the cycle's random byte AND `kk`, and every byte can be that random byte: it is the one the host supplies,
or a free value. (R105 rests on the spec's decision D14.) -/
def Obligations.RndMasksTheRandomByte : Prop :=
  ∀ (s : State) (x : RegNum) (kk : Byte),
    (∃ v, SetsReg (.rnd x kk) s x v ∧ ∀ b < 8, v.getLsbD b = (s.input.rnd.getLsbD b && kk.getLsbD b)) ∧
    ∀ (r : Byte) (tick : Bool) (rest : List CycleInput),
      ∃ v, SetsReg (.rnd x kk) { s with inputs := { rnd := r, tick := tick } :: rest } x v ∧
        ∀ b < 8, v.getLsbD b = (r.getLsbD b && kk.getLsbD b)

/-! ### Index register and memory (spec/43_index_memory.md) -/

/-- R106, R107: `LD I, nnn` and `ADD I, Vx`, modulo 65536 and with no flag. -/
def Obligations.IndexLoadAndAdd : Prop :=
  DecodesAs 0xA000 0xF000 (fun w => .ldI (fieldNNN w)) ∧
  DecodesAs 0xF01E 0xF0FF (fun w => .addI (fieldX w)) ∧
  ∀ (s : State) (x : RegNum) (nnn : Addr12),
    SetsIndex (.ldI nnn) s nnn.toNat ∧ SetsIndex (.addI x) s ((s.I.toNat + (s.reg x).toNat) % 65536)

/-- `LD F, Vx`: `I` is 0x050 + 5 Vx for every Vx, and for a digit the five bytes there are its glyph of `FONT`. (R108 rests
on the spec's decision D25 for Vx above 15.) -/
def Obligations.GlyphAddressHoldsTheGlyph : Prop :=
  ∀ (s : State) (x : RegNum),
    SetsIndex (.ldF x) s (0x050 + 5 * (s.reg x).toNat) ∧
    (s.Inv → ∀ t, exec (.ldF x) s = .next t → ∀ (d k : Nat) (hd : d < 16) (hk : k < 5), (s.reg x).toNat = d →
      t.readByte (t.I.toNat + k) = s.cfg.font[5 * d + k])

/-- `LD B, Vx`: the decimal digits of Vx at the checked addresses of `I`, `I + 1` and `I + 2`, hundreds first; a byte of the
font is left alone, and so is every other byte. (R109 rests on the spec's decisions D9 and D11.) -/
def Obligations.BcdStoresTheDigits : Prop :=
  ∀ (s : State) (x : RegNum), s.Reaches 3 →
    ∃ t, exec (.ldB x) s = .next t ∧ t = { s with memory := t.memory } ∧
      (∀ k < 3, ∀ a, checkAddr s.cfg.addrMode (s.I.toNat + k) = .ok a → ¬ InFont a →
        (t.readByte a).toNat = (s.reg x).toNat / 10 ^ (2 - k) % 10) ∧
      (∀ a, InFont a → t.readByte a = s.readByte a) ∧
      (∀ a, (∀ k < 3, checkAddr s.cfg.addrMode (s.I.toNat + k) ≠ .ok a) → t.readByte a = s.readByte a)

/-- `LD [I], Vx`: V0 to Vx at the checked addresses of `I` on; a byte of the font is left alone, and so is every other byte.
(R110 rests on the spec's decisions D9, D11 and D17.) -/
def Obligations.StoreRegistersStoresV0ToVx : Prop :=
  ∀ (s : State) (x : RegNum), s.Reaches (x.val + 1) →
    ∃ t, exec (.storeRegs x) s = .next t ∧ t = { s with memory := t.memory } ∧
      (∀ r : RegNum, r ≤ x → ∀ a, checkAddr s.cfg.addrMode (s.I.toNat + r.val) = .ok a → ¬ InFont a →
        t.readByte a = s.reg r) ∧
      (∀ a, InFont a → t.readByte a = s.readByte a) ∧
      (∀ a, (∀ r : RegNum, r ≤ x → checkAddr s.cfg.addrMode (s.I.toNat + r.val) ≠ .ok a) →
        t.readByte a = s.readByte a)

/-- `LD Vx, [I]`: V0 to Vx are the bytes at the checked addresses of `I` on; no other register and no byte of memory changes.
(R111 rests on the spec's decisions D9 and D17.) -/
def Obligations.LoadRegistersLoadsV0ToVx : Prop :=
  ∀ (s : State) (x : RegNum), s.Reaches (x.val + 1) →
    ∃ t, exec (.loadRegs x) s = .next t ∧ t = { s with V := t.V } ∧ SameMemory s t ∧
      (∀ r : RegNum, r ≤ x → ∀ a, checkAddr s.cfg.addrMode (s.I.toNat + r.val) = .ok a →
        t.reg r = s.readByte a) ∧
      (∀ r : RegNum, x < r → t.reg r = s.reg r)

/-- Storing V0 to Vx outside the font and loading them back, whatever the registers and `pc` hold in between, gives V0 to Vx
their values again and leaves the others. -/
def Obligations.StoreThenLoadRestoresRegisters : Prop :=
  ∀ (s t : State) (x : RegNum) (V' : Vector Byte 16) (q : Word), exec (.storeRegs x) s = .next t →
    (∀ r : RegNum, r ≤ x → ∀ a, checkAddr s.cfg.addrMode (s.I.toNat + r.val) = .ok a → ¬ InFont a) →
    ∃ u, exec (.loadRegs x) { t with V := V', pc := q } = .next u ∧
      (∀ r : RegNum, r ≤ x → u.reg r = s.reg r) ∧ (∀ r : RegNum, x < r → u.reg r = V'[r])

/-- The fetch sees every earlier store with no fence. A byte that a cycle stores by LD B or LD [I] is the byte that the fetch
of any later cycle reads at its address, in either half of the word, in every mode, as long as no cycle in between stores
there again; each half is seen by itself, so the two may come from different stores. (R49 rests on the spec's decision D22,
the addresses on D9 and D11. The host does nothing between these cycles: DESIGN CHOICE, log entry 3.) -/
def Obligations.FetchSeesTheStoredWord : Prop :=
  ∀ (n : Nat) (s t u : State) (a : Nat) (b : Byte), step s = .next t → CycleStoresAt s a b →
    Host.Core.run core n t = .next u →
    (∀ m < n, ∀ v : State, Host.Core.run core m t = .next v → ∀ c, ¬ CycleStoresAt v a c) →
    ∀ w, u.fetch = .ok w →
      (u.pc.toNat % 0x1000 = a → w.extractLsb' 8 8 = b) ∧ ((u.pc.toNat + 1) % 0x1000 = a → w.extractLsb' 0 8 = b)

/-! ### Display (spec/44_display.md) -/

/-- R113: `CLS` clears every pixel and changes nothing else, VF included. -/
def Obligations.ClsClearsEveryPixel : Prop :=
  DecodesAs 0x00E0 0xFFFF (fun _ => .cls) ∧
  ∀ s : State, ∃ t, exec .cls s = .next t ∧ (∀ r c, t.disp.pixel r c = false) ∧ t = { s with disp := t.disp } ∧
    SameMemory s t

/-- `DRW Vx, Vy, n`: exactly the pixels the sprite covers are toggled, VF is 1 if some pixel went from set to unset and 0
otherwise, and nothing else changes; the origin is read before VF is written. (R114 to R117 rest on the spec's decisions D2,
D3, D4 and D9.) -/
def Obligations.DrawTogglesTheCoveredPixels : Prop :=
  ∀ (s : State) (x y : RegNum) (n : Nibble), s.Reaches n.toNat →
    ∃ t, exec (.drw x y n) s = .next t ∧ t = { s with V := t.V, disp := t.disp } ∧ SameRegsBut VF s t ∧
      SameMemory s t ∧
      (∀ r c, t.disp.pixel r c ≠ s.disp.pixel r c ↔ SpriteCovers s x y n r c) ∧
      ((∃ r c, s.disp.pixel r c = true ∧ t.disp.pixel r c = false) → t.reg VF = 1) ∧
      ((¬ ∃ r c, s.disp.pixel r c = true ∧ t.disp.pixel r c = false) → t.reg VF = 0)

/-- Drawing the same sprite twice at the same place restores the display; on a clear display the first draw reports no
collision and the second reports one exactly when the sprite covers some pixel. (R114's last corner case without its "clear
background" does not hold: DEDUCED, log entry 7.) -/
def Obligations.DrawingTwiceRestoresTheDisplay : Prop :=
  ∀ (s t : State) (x y : RegNum) (n : Nibble), exec (.drw x y n) s = .next t →
    ∃ u, exec (.drw x y n) { t with V := s.V } = .next u ∧ u.disp = s.disp ∧
      ((∀ r c, s.disp.pixel r c = false) → t.reg VF = 0 ∧
        (u.reg VF = 1 ↔ ∃ r c, SpriteCovers s x y n r c))

/-! ### Keys and timers (spec/45_timers_input.md) -/

/-- `SKP Vx` and `SKNP Vx` test the key of the low nibble of Vx and skip, changing nothing else. (R118 to R120 rest on the
spec's decision D13.) -/
def Obligations.KeySkipsTestTheLowNibble : Prop :=
  ∀ (s : State) (x : RegNum) (k : Fin 16), k.val = (s.reg x).toNat % 16 →
    SetsPc (.skp x) s (if s.keyPressed k = true then (s.pc.toNat + 2) % 65536 else s.pc.toNat) ∧
    SetsPc (.sknp x) s (if s.keyPressed k = false then (s.pc.toNat + 2) % 65536 else s.pc.toNat)

/-- `LD Vx, K`: with a key pressed Vx is the lowest such key; with none `pc` goes back to this instruction and nothing else
changes. (R122 rests on the spec's decision D12.) -/
def Obligations.KeyWaitTakesTheLowestKey : Prop :=
  ∀ (s : State) (x : RegNum),
    (∀ k : Fin 16, s.keyPressed k = true → (∀ j < k, s.keyPressed j = false) →
      ∃ v, SetsReg (.ldVxK x) s x v ∧ v.toNat = k.val) ∧
    ((∀ k, s.keyPressed k = false) → SetsPc (.ldVxK x) s (s.pc - 2).toNat)

/-- The wait for a key lasts: while no key is pressed, any number of cycles on `LD Vx, K` leave `pc` at it and registers,
index, stack, display and memory as they are, and only the timers count down, to the tick if every cycle ticks. (R122, R148;
the spec's decision D12. The host writes no keys between these cycles: DESIGN CHOICE, log entry 3.) -/
def Obligations.KeyWaitLastsUntilAKeyIsPressed : Prop :=
  ∀ (n : Nat) (s : State) (x : RegNum), s.Fetchable → decodeWord s.wordAtPc = .ldVxK x →
    (∀ k, s.keyPressed k = false) →
    ∃ t, Host.Core.run core n s = .next t ∧
      t = { s with DT := t.DT, ST := t.ST, ir := t.ir, inputs := t.inputs, draws := t.draws } ∧
      t.DT.toNat ≤ s.DT.toNat ∧ t.ST.toNat ≤ s.ST.toNat ∧
      (n ≤ s.inputs.length → (∀ i ∈ s.inputs.take n, i.tick = true) →
        t.DT.toNat = s.DT.toNat - n ∧ t.ST.toNat = s.ST.toNat - n)

/-- R121, R123, and R124 but for its remark that no instruction reads `ST` (`IrAndSoundTimerAreNotRead` states it): the timer
transfers, as instructions and as whole cycles. `Fx07` reads `DT` before the cycle's tick, and the tick applies to the value
`Fx15` or `Fx18` has just written. -/
def Obligations.TimerTransfersAndTheirTick : Prop :=
  DecodesAs 0xF007 0xF0FF (fun w => .ldVxDt (fieldX w)) ∧
  DecodesAs 0xF015 0xF0FF (fun w => .ldDtVx (fieldX w)) ∧
  DecodesAs 0xF018 0xF0FF (fun w => .ldStVx (fieldX w)) ∧
  (∀ (s : State) (x : RegNum),
    SetsReg (.ldVxDt x) s x s.DT ∧
    (∃ t, exec (.ldDtVx x) s = .next t ∧ t.DT = s.reg x ∧ t = { s with DT := t.DT } ∧ SameMemory s t) ∧
    (∃ t, exec (.ldStVx x) s = .next t ∧ t.ST = s.reg x ∧ t = { s with ST := t.ST } ∧ SameMemory s t)) ∧
  ∀ (s : State) (x : RegNum), s.Fetchable →
    (decodeWord s.wordAtPc = .ldVxDt x → ∃ t, step s = .next t ∧ t.reg x = s.DT ∧
      t.DT.toNat = (if s.input.tick = true then s.DT.toNat - 1 else s.DT.toNat)) ∧
    (decodeWord s.wordAtPc = .ldDtVx x → ∃ t, step s = .next t ∧
      t.DT.toNat = (if s.input.tick = true then (s.reg x).toNat - 1 else (s.reg x).toNat)) ∧
    (decodeWord s.wordAtPc = .ldStVx x → ∃ t, step s = .next t ∧
      t.ST.toNat = (if s.input.tick = true then (s.reg x).toNat - 1 else (s.reg x).toNat))

/-! ### Host operations (spec/40_cycle.md section 2) -/

/-- `LoadRom`: at most 3584 bytes are copied to 0x200 on, and nothing else changes; a longer stream is refused and changes
nothing. (R78 rests on the spec's decision D18.) -/
def Obligations.LoadRomCopiesOrRefuses : Prop :=
  ∀ (s : State) (bytes : List Byte),
    (3584 < bytes.length → opLoadRom bytes s = (s, .romTooLarge)) ∧
    (bytes.length ≤ 3584 → ∃ t, opLoadRom bytes s = (t, .ok) ∧ t = { s with memory := t.memory } ∧
      (∀ (k : Nat) (h : k < bytes.length), t.readByte (0x200 + k) = bytes[k]) ∧
      (∀ a, a < 0x200 ∨ 0x200 + bytes.length ≤ a → t.readByte a = s.readByte a))

/-- `WriteKeys` sets every key flag and changes nothing else. (R76 rests on the spec's decision D28.) -/
def Obligations.WriteKeysSetsEveryKey : Prop :=
  ∀ (s : State) (keys : Vector Bool 16), (hostOp (.writeKeys keys) s).2 = .done ∧
    (∀ k, (hostOp (.writeKeys keys) s).1.keyPressed k = keys[k]) ∧
    (hostOp (.writeKeys keys) s).1 = { s with key := (hostOp (.writeKeys keys) s).1.key } ∧
    SameMemory s (hostOp (.writeKeys keys) s).1

/-- R77, R79: the display and the timers are read without changing any state. -/
def Obligations.HostReadsChangeNothing : Prop :=
  ∀ s : State, hostOp .readDisplay s = (s, .display s.disp) ∧ hostOp .readTimers s = (s, .timers s.DT s.ST)

/-- `Introspect` changes no state and shows the registers, the live stack entries only, the requested bytes that memory has,
and `ir`. (R80 and R23 rest on the spec's decisions D26 and D27. That a range running past 0xFFF is answered with those of its
bytes that memory has, and no error: DESIGN CHOICE, log entry 12.) -/
def Obligations.IntrospectShowsLiveState : Prop :=
  ∀ (s : State) (lo len : Nat), s.Inv → ∃ i, hostOp (.introspect lo len) s = (s, .introspection i) ∧
    (∀ r : RegNum, i.V[r.val]? = some (s.reg r)) ∧ i.I = s.I ∧ i.pc = s.pc ∧ i.DT = s.DT ∧ i.ST = s.ST ∧
    i.sp = s.sp ∧ i.ir = s.ir ∧ i.stack.length = s.sp.toNat ∧
    (∀ j < s.sp.toNat, i.stack[j]? = some (s.stackEntry j)) ∧
    (∀ k < len, lo + k < 0x1000 → i.memory[k]? = some (s.readByte (lo + k)))

/-- `Reset` from any state gives R32's values, the ROM cleared with the rest of memory and the parameters kept; the queue of
inputs and the count of free ones stay (DESIGN CHOICE, log entry 13). (R140 rests on the spec's decisions D5 and D19.) -/
def Obligations.ResetOperationRestoresEverything : Prop :=
  ∀ s : State, ∃ t, hostOp .reset s = (t, .done) ∧
    t = { State.resetWith s.cfg with inputs := s.inputs, draws := s.draws } ∧
    (∀ a, ¬ InFont a → t.readByte a = 0) ∧
    (∀ (k : Nat) (h : k < 80), t.readByte (0x050 + k) = s.cfg.font[k]) ∧ t.Inv
end

