-- ==== Sys2Proof/Laws/State.lean ====
section
/-! SUPPORT. What each named update of the state leaves in each field: one lemma per field per update, and the same for the
accessors that read a field. -/

namespace Sys2Proof.Machine

/-! ### setReg -/

@[simp] theorem State.setReg_I (s : State) (x : RegNum) (v : Byte) : (s.setReg x v).I = s.I := rfl
@[simp] theorem State.setReg_pc (s : State) (x : RegNum) (v : Byte) : (s.setReg x v).pc = s.pc := rfl
@[simp] theorem State.setReg_sp (s : State) (x : RegNum) (v : Byte) : (s.setReg x v).sp = s.sp := rfl
@[simp] theorem State.setReg_stack (s : State) (x : RegNum) (v : Byte) : (s.setReg x v).stack = s.stack := rfl
@[simp] theorem State.setReg_DT (s : State) (x : RegNum) (v : Byte) : (s.setReg x v).DT = s.DT := rfl
@[simp] theorem State.setReg_ST (s : State) (x : RegNum) (v : Byte) : (s.setReg x v).ST = s.ST := rfl
@[simp] theorem State.setReg_key (s : State) (x : RegNum) (v : Byte) : (s.setReg x v).key = s.key := rfl
@[simp] theorem State.setReg_disp (s : State) (x : RegNum) (v : Byte) : (s.setReg x v).disp = s.disp := rfl
@[simp] theorem State.setReg_memory (s : State) (x : RegNum) (v : Byte) : (s.setReg x v).memory = s.memory := rfl
@[simp] theorem State.setReg_ir (s : State) (x : RegNum) (v : Byte) : (s.setReg x v).ir = s.ir := rfl
@[simp] theorem State.setReg_cfg (s : State) (x : RegNum) (v : Byte) : (s.setReg x v).cfg = s.cfg := rfl
@[simp] theorem State.setReg_inputs (s : State) (x : RegNum) (v : Byte) : (s.setReg x v).inputs = s.inputs := rfl
@[simp] theorem State.setReg_draws (s : State) (x : RegNum) (v : Byte) : (s.setReg x v).draws = s.draws := rfl
@[simp] theorem State.setReg_readByte (s : State) (x : RegNum) (v : Byte) (b : Nat) : (s.setReg x v).readByte b = s.readByte b := rfl
@[simp] theorem State.setReg_stackEntry (s : State) (x : RegNum) (v : Byte) (j : Nat) : (s.setReg x v).stackEntry j = s.stackEntry j := rfl
@[simp] theorem State.setReg_keyPressed (s : State) (x : RegNum) (v : Byte) (k : Fin 16) : (s.setReg x v).keyPressed k = s.keyPressed k := rfl
@[simp] theorem State.setReg_input (s : State) (x : RegNum) (v : Byte) : (s.setReg x v).input = s.input := rfl
@[simp] theorem State.setReg_cpc (s : State) (x : RegNum) (v : Byte) : (s.setReg x v).cpc = s.cpc := rfl

/-! ### setRegThenFlag -/

@[simp] theorem State.setRegThenFlag_I (s : State) (x : RegNum) (v : Byte) (f : Bool) : (s.setRegThenFlag x v f).I = s.I := rfl
@[simp] theorem State.setRegThenFlag_pc (s : State) (x : RegNum) (v : Byte) (f : Bool) : (s.setRegThenFlag x v f).pc = s.pc := rfl
@[simp] theorem State.setRegThenFlag_sp (s : State) (x : RegNum) (v : Byte) (f : Bool) : (s.setRegThenFlag x v f).sp = s.sp := rfl
@[simp] theorem State.setRegThenFlag_stack (s : State) (x : RegNum) (v : Byte) (f : Bool) : (s.setRegThenFlag x v f).stack = s.stack := rfl
@[simp] theorem State.setRegThenFlag_DT (s : State) (x : RegNum) (v : Byte) (f : Bool) : (s.setRegThenFlag x v f).DT = s.DT := rfl
@[simp] theorem State.setRegThenFlag_ST (s : State) (x : RegNum) (v : Byte) (f : Bool) : (s.setRegThenFlag x v f).ST = s.ST := rfl
@[simp] theorem State.setRegThenFlag_key (s : State) (x : RegNum) (v : Byte) (f : Bool) : (s.setRegThenFlag x v f).key = s.key := rfl
@[simp] theorem State.setRegThenFlag_disp (s : State) (x : RegNum) (v : Byte) (f : Bool) : (s.setRegThenFlag x v f).disp = s.disp := rfl
@[simp] theorem State.setRegThenFlag_memory (s : State) (x : RegNum) (v : Byte) (f : Bool) : (s.setRegThenFlag x v f).memory = s.memory := rfl
@[simp] theorem State.setRegThenFlag_ir (s : State) (x : RegNum) (v : Byte) (f : Bool) : (s.setRegThenFlag x v f).ir = s.ir := rfl
@[simp] theorem State.setRegThenFlag_cfg (s : State) (x : RegNum) (v : Byte) (f : Bool) : (s.setRegThenFlag x v f).cfg = s.cfg := rfl
@[simp] theorem State.setRegThenFlag_inputs (s : State) (x : RegNum) (v : Byte) (f : Bool) : (s.setRegThenFlag x v f).inputs = s.inputs := rfl
@[simp] theorem State.setRegThenFlag_draws (s : State) (x : RegNum) (v : Byte) (f : Bool) : (s.setRegThenFlag x v f).draws = s.draws := rfl
@[simp] theorem State.setRegThenFlag_readByte (s : State) (x : RegNum) (v : Byte) (f : Bool) (b : Nat) : (s.setRegThenFlag x v f).readByte b = s.readByte b := rfl
@[simp] theorem State.setRegThenFlag_stackEntry (s : State) (x : RegNum) (v : Byte) (f : Bool) (j : Nat) : (s.setRegThenFlag x v f).stackEntry j = s.stackEntry j := rfl
@[simp] theorem State.setRegThenFlag_keyPressed (s : State) (x : RegNum) (v : Byte) (f : Bool) (k : Fin 16) : (s.setRegThenFlag x v f).keyPressed k = s.keyPressed k := rfl
@[simp] theorem State.setRegThenFlag_input (s : State) (x : RegNum) (v : Byte) (f : Bool) : (s.setRegThenFlag x v f).input = s.input := rfl
@[simp] theorem State.setRegThenFlag_cpc (s : State) (x : RegNum) (v : Byte) (f : Bool) : (s.setRegThenFlag x v f).cpc = s.cpc := rfl

/-! ### setRegs -/

@[simp] theorem State.setRegs_I (s : State) (vals : List Byte) : (s.setRegs vals).I = s.I := rfl
@[simp] theorem State.setRegs_pc (s : State) (vals : List Byte) : (s.setRegs vals).pc = s.pc := rfl
@[simp] theorem State.setRegs_sp (s : State) (vals : List Byte) : (s.setRegs vals).sp = s.sp := rfl
@[simp] theorem State.setRegs_stack (s : State) (vals : List Byte) : (s.setRegs vals).stack = s.stack := rfl
@[simp] theorem State.setRegs_DT (s : State) (vals : List Byte) : (s.setRegs vals).DT = s.DT := rfl
@[simp] theorem State.setRegs_ST (s : State) (vals : List Byte) : (s.setRegs vals).ST = s.ST := rfl
@[simp] theorem State.setRegs_key (s : State) (vals : List Byte) : (s.setRegs vals).key = s.key := rfl
@[simp] theorem State.setRegs_disp (s : State) (vals : List Byte) : (s.setRegs vals).disp = s.disp := rfl
@[simp] theorem State.setRegs_memory (s : State) (vals : List Byte) : (s.setRegs vals).memory = s.memory := rfl
@[simp] theorem State.setRegs_ir (s : State) (vals : List Byte) : (s.setRegs vals).ir = s.ir := rfl
@[simp] theorem State.setRegs_cfg (s : State) (vals : List Byte) : (s.setRegs vals).cfg = s.cfg := rfl
@[simp] theorem State.setRegs_inputs (s : State) (vals : List Byte) : (s.setRegs vals).inputs = s.inputs := rfl
@[simp] theorem State.setRegs_draws (s : State) (vals : List Byte) : (s.setRegs vals).draws = s.draws := rfl
@[simp] theorem State.setRegs_readByte (s : State) (vals : List Byte) (b : Nat) : (s.setRegs vals).readByte b = s.readByte b := rfl
@[simp] theorem State.setRegs_stackEntry (s : State) (vals : List Byte) (j : Nat) : (s.setRegs vals).stackEntry j = s.stackEntry j := rfl
@[simp] theorem State.setRegs_keyPressed (s : State) (vals : List Byte) (k : Fin 16) : (s.setRegs vals).keyPressed k = s.keyPressed k := rfl
@[simp] theorem State.setRegs_input (s : State) (vals : List Byte) : (s.setRegs vals).input = s.input := rfl
@[simp] theorem State.setRegs_cpc (s : State) (vals : List Byte) : (s.setRegs vals).cpc = s.cpc := rfl

/-! ### skipIf -/

@[simp] theorem State.skipIf_V (s : State) (c : Bool) : (s.skipIf c).V = s.V := rfl
@[simp] theorem State.skipIf_I (s : State) (c : Bool) : (s.skipIf c).I = s.I := rfl
@[simp] theorem State.skipIf_sp (s : State) (c : Bool) : (s.skipIf c).sp = s.sp := rfl
@[simp] theorem State.skipIf_stack (s : State) (c : Bool) : (s.skipIf c).stack = s.stack := rfl
@[simp] theorem State.skipIf_DT (s : State) (c : Bool) : (s.skipIf c).DT = s.DT := rfl
@[simp] theorem State.skipIf_ST (s : State) (c : Bool) : (s.skipIf c).ST = s.ST := rfl
@[simp] theorem State.skipIf_key (s : State) (c : Bool) : (s.skipIf c).key = s.key := rfl
@[simp] theorem State.skipIf_disp (s : State) (c : Bool) : (s.skipIf c).disp = s.disp := rfl
@[simp] theorem State.skipIf_memory (s : State) (c : Bool) : (s.skipIf c).memory = s.memory := rfl
@[simp] theorem State.skipIf_ir (s : State) (c : Bool) : (s.skipIf c).ir = s.ir := rfl
@[simp] theorem State.skipIf_cfg (s : State) (c : Bool) : (s.skipIf c).cfg = s.cfg := rfl
@[simp] theorem State.skipIf_inputs (s : State) (c : Bool) : (s.skipIf c).inputs = s.inputs := rfl
@[simp] theorem State.skipIf_draws (s : State) (c : Bool) : (s.skipIf c).draws = s.draws := rfl
@[simp] theorem State.skipIf_reg (s : State) (c : Bool) (r : RegNum) : (s.skipIf c).reg r = s.reg r := rfl
@[simp] theorem State.skipIf_readByte (s : State) (c : Bool) (b : Nat) : (s.skipIf c).readByte b = s.readByte b := rfl
@[simp] theorem State.skipIf_stackEntry (s : State) (c : Bool) (j : Nat) : (s.skipIf c).stackEntry j = s.stackEntry j := rfl
@[simp] theorem State.skipIf_keyPressed (s : State) (c : Bool) (k : Fin 16) : (s.skipIf c).keyPressed k = s.keyPressed k := rfl
@[simp] theorem State.skipIf_input (s : State) (c : Bool) : (s.skipIf c).input = s.input := rfl

/-! ### push -/

@[simp] theorem State.push_V (s : State) (a : Word) : (s.push a).V = s.V := rfl
@[simp] theorem State.push_I (s : State) (a : Word) : (s.push a).I = s.I := rfl
@[simp] theorem State.push_pc (s : State) (a : Word) : (s.push a).pc = s.pc := rfl
@[simp] theorem State.push_DT (s : State) (a : Word) : (s.push a).DT = s.DT := rfl
@[simp] theorem State.push_ST (s : State) (a : Word) : (s.push a).ST = s.ST := rfl
@[simp] theorem State.push_key (s : State) (a : Word) : (s.push a).key = s.key := rfl
@[simp] theorem State.push_disp (s : State) (a : Word) : (s.push a).disp = s.disp := rfl
@[simp] theorem State.push_memory (s : State) (a : Word) : (s.push a).memory = s.memory := rfl
@[simp] theorem State.push_ir (s : State) (a : Word) : (s.push a).ir = s.ir := rfl
@[simp] theorem State.push_cfg (s : State) (a : Word) : (s.push a).cfg = s.cfg := rfl
@[simp] theorem State.push_inputs (s : State) (a : Word) : (s.push a).inputs = s.inputs := rfl
@[simp] theorem State.push_draws (s : State) (a : Word) : (s.push a).draws = s.draws := rfl
@[simp] theorem State.push_reg (s : State) (a : Word) (r : RegNum) : (s.push a).reg r = s.reg r := rfl
@[simp] theorem State.push_readByte (s : State) (a : Word) (b : Nat) : (s.push a).readByte b = s.readByte b := rfl
@[simp] theorem State.push_keyPressed (s : State) (a : Word) (k : Fin 16) : (s.push a).keyPressed k = s.keyPressed k := rfl
@[simp] theorem State.push_input (s : State) (a : Word) : (s.push a).input = s.input := rfl
@[simp] theorem State.push_cpc (s : State) (a : Word) : (s.push a).cpc = s.cpc := rfl

/-! ### popPc -/

@[simp] theorem State.popPc_V (s : State) : (s.popPc).V = s.V := rfl
@[simp] theorem State.popPc_I (s : State) : (s.popPc).I = s.I := rfl
@[simp] theorem State.popPc_stack (s : State) : (s.popPc).stack = s.stack := rfl
@[simp] theorem State.popPc_DT (s : State) : (s.popPc).DT = s.DT := rfl
@[simp] theorem State.popPc_ST (s : State) : (s.popPc).ST = s.ST := rfl
@[simp] theorem State.popPc_key (s : State) : (s.popPc).key = s.key := rfl
@[simp] theorem State.popPc_disp (s : State) : (s.popPc).disp = s.disp := rfl
@[simp] theorem State.popPc_memory (s : State) : (s.popPc).memory = s.memory := rfl
@[simp] theorem State.popPc_ir (s : State) : (s.popPc).ir = s.ir := rfl
@[simp] theorem State.popPc_cfg (s : State) : (s.popPc).cfg = s.cfg := rfl
@[simp] theorem State.popPc_inputs (s : State) : (s.popPc).inputs = s.inputs := rfl
@[simp] theorem State.popPc_draws (s : State) : (s.popPc).draws = s.draws := rfl
@[simp] theorem State.popPc_reg (s : State) (r : RegNum) : (s.popPc).reg r = s.reg r := rfl
@[simp] theorem State.popPc_readByte (s : State) (b : Nat) : (s.popPc).readByte b = s.readByte b := rfl
@[simp] theorem State.popPc_stackEntry (s : State) (j : Nat) : (s.popPc).stackEntry j = s.stackEntry j := rfl
@[simp] theorem State.popPc_keyPressed (s : State) (k : Fin 16) : (s.popPc).keyPressed k = s.keyPressed k := rfl
@[simp] theorem State.popPc_input (s : State) : (s.popPc).input = s.input := rfl

/-! ### writeByte -/

@[simp] theorem State.writeByte_V (s : State) (a : Nat) (v : Byte) : (s.writeByte a v).V = s.V := rfl
@[simp] theorem State.writeByte_I (s : State) (a : Nat) (v : Byte) : (s.writeByte a v).I = s.I := rfl
@[simp] theorem State.writeByte_pc (s : State) (a : Nat) (v : Byte) : (s.writeByte a v).pc = s.pc := rfl
@[simp] theorem State.writeByte_sp (s : State) (a : Nat) (v : Byte) : (s.writeByte a v).sp = s.sp := rfl
@[simp] theorem State.writeByte_stack (s : State) (a : Nat) (v : Byte) : (s.writeByte a v).stack = s.stack := rfl
@[simp] theorem State.writeByte_DT (s : State) (a : Nat) (v : Byte) : (s.writeByte a v).DT = s.DT := rfl
@[simp] theorem State.writeByte_ST (s : State) (a : Nat) (v : Byte) : (s.writeByte a v).ST = s.ST := rfl
@[simp] theorem State.writeByte_key (s : State) (a : Nat) (v : Byte) : (s.writeByte a v).key = s.key := rfl
@[simp] theorem State.writeByte_disp (s : State) (a : Nat) (v : Byte) : (s.writeByte a v).disp = s.disp := rfl
@[simp] theorem State.writeByte_ir (s : State) (a : Nat) (v : Byte) : (s.writeByte a v).ir = s.ir := rfl
@[simp] theorem State.writeByte_cfg (s : State) (a : Nat) (v : Byte) : (s.writeByte a v).cfg = s.cfg := rfl
@[simp] theorem State.writeByte_inputs (s : State) (a : Nat) (v : Byte) : (s.writeByte a v).inputs = s.inputs := rfl
@[simp] theorem State.writeByte_draws (s : State) (a : Nat) (v : Byte) : (s.writeByte a v).draws = s.draws := rfl
@[simp] theorem State.writeByte_reg (s : State) (a : Nat) (v : Byte) (r : RegNum) : (s.writeByte a v).reg r = s.reg r := rfl
@[simp] theorem State.writeByte_stackEntry (s : State) (a : Nat) (v : Byte) (j : Nat) : (s.writeByte a v).stackEntry j = s.stackEntry j := rfl
@[simp] theorem State.writeByte_keyPressed (s : State) (a : Nat) (v : Byte) (k : Fin 16) : (s.writeByte a v).keyPressed k = s.keyPressed k := rfl
@[simp] theorem State.writeByte_input (s : State) (a : Nat) (v : Byte) : (s.writeByte a v).input = s.input := rfl
@[simp] theorem State.writeByte_cpc (s : State) (a : Nat) (v : Byte) : (s.writeByte a v).cpc = s.cpc := rfl

/-! ### storeByte -/

@[simp] theorem State.storeByte_V (s : State) (a : Nat) (v : Byte) : (s.storeByte a v).V = s.V := by
  unfold State.storeByte; split <;> rfl
@[simp] theorem State.storeByte_I (s : State) (a : Nat) (v : Byte) : (s.storeByte a v).I = s.I := by
  unfold State.storeByte; split <;> rfl
@[simp] theorem State.storeByte_pc (s : State) (a : Nat) (v : Byte) : (s.storeByte a v).pc = s.pc := by
  unfold State.storeByte; split <;> rfl
@[simp] theorem State.storeByte_sp (s : State) (a : Nat) (v : Byte) : (s.storeByte a v).sp = s.sp := by
  unfold State.storeByte; split <;> rfl
@[simp] theorem State.storeByte_stack (s : State) (a : Nat) (v : Byte) : (s.storeByte a v).stack = s.stack := by
  unfold State.storeByte; split <;> rfl
@[simp] theorem State.storeByte_DT (s : State) (a : Nat) (v : Byte) : (s.storeByte a v).DT = s.DT := by
  unfold State.storeByte; split <;> rfl
@[simp] theorem State.storeByte_ST (s : State) (a : Nat) (v : Byte) : (s.storeByte a v).ST = s.ST := by
  unfold State.storeByte; split <;> rfl
@[simp] theorem State.storeByte_key (s : State) (a : Nat) (v : Byte) : (s.storeByte a v).key = s.key := by
  unfold State.storeByte; split <;> rfl
@[simp] theorem State.storeByte_disp (s : State) (a : Nat) (v : Byte) : (s.storeByte a v).disp = s.disp := by
  unfold State.storeByte; split <;> rfl
@[simp] theorem State.storeByte_ir (s : State) (a : Nat) (v : Byte) : (s.storeByte a v).ir = s.ir := by
  unfold State.storeByte; split <;> rfl
@[simp] theorem State.storeByte_cfg (s : State) (a : Nat) (v : Byte) : (s.storeByte a v).cfg = s.cfg := by
  unfold State.storeByte; split <;> rfl
@[simp] theorem State.storeByte_inputs (s : State) (a : Nat) (v : Byte) : (s.storeByte a v).inputs = s.inputs := by
  unfold State.storeByte; split <;> rfl
@[simp] theorem State.storeByte_draws (s : State) (a : Nat) (v : Byte) : (s.storeByte a v).draws = s.draws := by
  unfold State.storeByte; split <;> rfl
@[simp] theorem State.storeByte_reg (s : State) (a : Nat) (v : Byte) (r : RegNum) : (s.storeByte a v).reg r = s.reg r := by
  simp [State.reg]
@[simp] theorem State.storeByte_stackEntry (s : State) (a : Nat) (v : Byte) (j : Nat) : (s.storeByte a v).stackEntry j = s.stackEntry j := by
  simp [State.stackEntry]
@[simp] theorem State.storeByte_keyPressed (s : State) (a : Nat) (v : Byte) (k : Fin 16) : (s.storeByte a v).keyPressed k = s.keyPressed k := by
  simp [State.keyPressed]
@[simp] theorem State.storeByte_input (s : State) (a : Nat) (v : Byte) : (s.storeByte a v).input = s.input := by
  simp [State.input]
@[simp] theorem State.storeByte_cpc (s : State) (a : Nat) (v : Byte) : (s.storeByte a v).cpc = s.cpc := by
  simp [State.cpc]

/-! ### storeBytes -/

@[simp] theorem State.storeBytes_V (s : State) (cells : List (Nat × Byte)) : (s.storeBytes cells).V = s.V := by
  induction cells generalizing s with
  | nil => rfl
  | cons c rest ih => simp [State.storeBytes, ih]
@[simp] theorem State.storeBytes_I (s : State) (cells : List (Nat × Byte)) : (s.storeBytes cells).I = s.I := by
  induction cells generalizing s with
  | nil => rfl
  | cons c rest ih => simp [State.storeBytes, ih]
@[simp] theorem State.storeBytes_pc (s : State) (cells : List (Nat × Byte)) : (s.storeBytes cells).pc = s.pc := by
  induction cells generalizing s with
  | nil => rfl
  | cons c rest ih => simp [State.storeBytes, ih]
@[simp] theorem State.storeBytes_sp (s : State) (cells : List (Nat × Byte)) : (s.storeBytes cells).sp = s.sp := by
  induction cells generalizing s with
  | nil => rfl
  | cons c rest ih => simp [State.storeBytes, ih]
@[simp] theorem State.storeBytes_stack (s : State) (cells : List (Nat × Byte)) : (s.storeBytes cells).stack = s.stack := by
  induction cells generalizing s with
  | nil => rfl
  | cons c rest ih => simp [State.storeBytes, ih]
@[simp] theorem State.storeBytes_DT (s : State) (cells : List (Nat × Byte)) : (s.storeBytes cells).DT = s.DT := by
  induction cells generalizing s with
  | nil => rfl
  | cons c rest ih => simp [State.storeBytes, ih]
@[simp] theorem State.storeBytes_ST (s : State) (cells : List (Nat × Byte)) : (s.storeBytes cells).ST = s.ST := by
  induction cells generalizing s with
  | nil => rfl
  | cons c rest ih => simp [State.storeBytes, ih]
@[simp] theorem State.storeBytes_key (s : State) (cells : List (Nat × Byte)) : (s.storeBytes cells).key = s.key := by
  induction cells generalizing s with
  | nil => rfl
  | cons c rest ih => simp [State.storeBytes, ih]
@[simp] theorem State.storeBytes_disp (s : State) (cells : List (Nat × Byte)) : (s.storeBytes cells).disp = s.disp := by
  induction cells generalizing s with
  | nil => rfl
  | cons c rest ih => simp [State.storeBytes, ih]
@[simp] theorem State.storeBytes_ir (s : State) (cells : List (Nat × Byte)) : (s.storeBytes cells).ir = s.ir := by
  induction cells generalizing s with
  | nil => rfl
  | cons c rest ih => simp [State.storeBytes, ih]
@[simp] theorem State.storeBytes_cfg (s : State) (cells : List (Nat × Byte)) : (s.storeBytes cells).cfg = s.cfg := by
  induction cells generalizing s with
  | nil => rfl
  | cons c rest ih => simp [State.storeBytes, ih]
@[simp] theorem State.storeBytes_inputs (s : State) (cells : List (Nat × Byte)) : (s.storeBytes cells).inputs = s.inputs := by
  induction cells generalizing s with
  | nil => rfl
  | cons c rest ih => simp [State.storeBytes, ih]
@[simp] theorem State.storeBytes_draws (s : State) (cells : List (Nat × Byte)) : (s.storeBytes cells).draws = s.draws := by
  induction cells generalizing s with
  | nil => rfl
  | cons c rest ih => simp [State.storeBytes, ih]
@[simp] theorem State.storeBytes_reg (s : State) (cells : List (Nat × Byte)) (r : RegNum) : (s.storeBytes cells).reg r = s.reg r := by
  simp [State.reg]
@[simp] theorem State.storeBytes_stackEntry (s : State) (cells : List (Nat × Byte)) (j : Nat) : (s.storeBytes cells).stackEntry j = s.stackEntry j := by
  simp [State.stackEntry]
@[simp] theorem State.storeBytes_keyPressed (s : State) (cells : List (Nat × Byte)) (k : Fin 16) : (s.storeBytes cells).keyPressed k = s.keyPressed k := by
  simp [State.keyPressed]
@[simp] theorem State.storeBytes_input (s : State) (cells : List (Nat × Byte)) : (s.storeBytes cells).input = s.input := by
  simp [State.input]
@[simp] theorem State.storeBytes_cpc (s : State) (cells : List (Nat × Byte)) : (s.storeBytes cells).cpc = s.cpc := by
  simp [State.cpc]

/-! ### placeWord -/

@[simp] theorem State.placeWord_V (s : State) (w : Word) : (s.placeWord w).V = s.V := rfl
@[simp] theorem State.placeWord_I (s : State) (w : Word) : (s.placeWord w).I = s.I := rfl
@[simp] theorem State.placeWord_pc (s : State) (w : Word) : (s.placeWord w).pc = s.pc := rfl
@[simp] theorem State.placeWord_sp (s : State) (w : Word) : (s.placeWord w).sp = s.sp := rfl
@[simp] theorem State.placeWord_stack (s : State) (w : Word) : (s.placeWord w).stack = s.stack := rfl
@[simp] theorem State.placeWord_DT (s : State) (w : Word) : (s.placeWord w).DT = s.DT := rfl
@[simp] theorem State.placeWord_ST (s : State) (w : Word) : (s.placeWord w).ST = s.ST := rfl
@[simp] theorem State.placeWord_key (s : State) (w : Word) : (s.placeWord w).key = s.key := rfl
@[simp] theorem State.placeWord_disp (s : State) (w : Word) : (s.placeWord w).disp = s.disp := rfl
@[simp] theorem State.placeWord_ir (s : State) (w : Word) : (s.placeWord w).ir = s.ir := rfl
@[simp] theorem State.placeWord_cfg (s : State) (w : Word) : (s.placeWord w).cfg = s.cfg := rfl
@[simp] theorem State.placeWord_inputs (s : State) (w : Word) : (s.placeWord w).inputs = s.inputs := rfl
@[simp] theorem State.placeWord_draws (s : State) (w : Word) : (s.placeWord w).draws = s.draws := rfl
@[simp] theorem State.placeWord_reg (s : State) (w : Word) (r : RegNum) : (s.placeWord w).reg r = s.reg r := rfl
@[simp] theorem State.placeWord_stackEntry (s : State) (w : Word) (j : Nat) : (s.placeWord w).stackEntry j = s.stackEntry j := rfl
@[simp] theorem State.placeWord_keyPressed (s : State) (w : Word) (k : Fin 16) : (s.placeWord w).keyPressed k = s.keyPressed k := rfl
@[simp] theorem State.placeWord_input (s : State) (w : Word) : (s.placeWord w).input = s.input := rfl
@[simp] theorem State.placeWord_cpc (s : State) (w : Word) : (s.placeWord w).cpc = s.cpc := rfl

/-! ### drawSprite -/

@[simp] theorem State.drawSprite_I (s : State) (x y : RegNum) (rows : List Byte) : (s.drawSprite x y rows).I = s.I := rfl
@[simp] theorem State.drawSprite_pc (s : State) (x y : RegNum) (rows : List Byte) : (s.drawSprite x y rows).pc = s.pc := rfl
@[simp] theorem State.drawSprite_sp (s : State) (x y : RegNum) (rows : List Byte) : (s.drawSprite x y rows).sp = s.sp := rfl
@[simp] theorem State.drawSprite_stack (s : State) (x y : RegNum) (rows : List Byte) : (s.drawSprite x y rows).stack = s.stack := rfl
@[simp] theorem State.drawSprite_DT (s : State) (x y : RegNum) (rows : List Byte) : (s.drawSprite x y rows).DT = s.DT := rfl
@[simp] theorem State.drawSprite_ST (s : State) (x y : RegNum) (rows : List Byte) : (s.drawSprite x y rows).ST = s.ST := rfl
@[simp] theorem State.drawSprite_key (s : State) (x y : RegNum) (rows : List Byte) : (s.drawSprite x y rows).key = s.key := rfl
@[simp] theorem State.drawSprite_memory (s : State) (x y : RegNum) (rows : List Byte) : (s.drawSprite x y rows).memory = s.memory := rfl
@[simp] theorem State.drawSprite_ir (s : State) (x y : RegNum) (rows : List Byte) : (s.drawSprite x y rows).ir = s.ir := rfl
@[simp] theorem State.drawSprite_cfg (s : State) (x y : RegNum) (rows : List Byte) : (s.drawSprite x y rows).cfg = s.cfg := rfl
@[simp] theorem State.drawSprite_inputs (s : State) (x y : RegNum) (rows : List Byte) : (s.drawSprite x y rows).inputs = s.inputs := rfl
@[simp] theorem State.drawSprite_draws (s : State) (x y : RegNum) (rows : List Byte) : (s.drawSprite x y rows).draws = s.draws := rfl
@[simp] theorem State.drawSprite_readByte (s : State) (x y : RegNum) (rows : List Byte) (b : Nat) : (s.drawSprite x y rows).readByte b = s.readByte b := rfl
@[simp] theorem State.drawSprite_stackEntry (s : State) (x y : RegNum) (rows : List Byte) (j : Nat) : (s.drawSprite x y rows).stackEntry j = s.stackEntry j := rfl
@[simp] theorem State.drawSprite_keyPressed (s : State) (x y : RegNum) (rows : List Byte) (k : Fin 16) : (s.drawSprite x y rows).keyPressed k = s.keyPressed k := rfl
@[simp] theorem State.drawSprite_input (s : State) (x y : RegNum) (rows : List Byte) : (s.drawSprite x y rows).input = s.input := rfl
@[simp] theorem State.drawSprite_cpc (s : State) (x y : RegNum) (rows : List Byte) : (s.drawSprite x y rows).cpc = s.cpc := rfl

/-! ### advance -/

@[simp] theorem State.advance_V (s : State) : (s.advance).V = s.V := rfl
@[simp] theorem State.advance_I (s : State) : (s.advance).I = s.I := rfl
@[simp] theorem State.advance_sp (s : State) : (s.advance).sp = s.sp := rfl
@[simp] theorem State.advance_stack (s : State) : (s.advance).stack = s.stack := rfl
@[simp] theorem State.advance_DT (s : State) : (s.advance).DT = s.DT := rfl
@[simp] theorem State.advance_ST (s : State) : (s.advance).ST = s.ST := rfl
@[simp] theorem State.advance_key (s : State) : (s.advance).key = s.key := rfl
@[simp] theorem State.advance_disp (s : State) : (s.advance).disp = s.disp := rfl
@[simp] theorem State.advance_memory (s : State) : (s.advance).memory = s.memory := rfl
@[simp] theorem State.advance_ir (s : State) : (s.advance).ir = s.ir := rfl
@[simp] theorem State.advance_cfg (s : State) : (s.advance).cfg = s.cfg := rfl
@[simp] theorem State.advance_inputs (s : State) : (s.advance).inputs = s.inputs := rfl
@[simp] theorem State.advance_draws (s : State) : (s.advance).draws = s.draws := rfl
@[simp] theorem State.advance_reg (s : State) (r : RegNum) : (s.advance).reg r = s.reg r := rfl
@[simp] theorem State.advance_readByte (s : State) (b : Nat) : (s.advance).readByte b = s.readByte b := rfl
@[simp] theorem State.advance_stackEntry (s : State) (j : Nat) : (s.advance).stackEntry j = s.stackEntry j := rfl
@[simp] theorem State.advance_keyPressed (s : State) (k : Fin 16) : (s.advance).keyPressed k = s.keyPressed k := rfl
@[simp] theorem State.advance_input (s : State) : (s.advance).input = s.input := rfl

/-! ### tickTimers -/

@[simp] theorem State.tickTimers_V (s : State) (c : Bool) : (s.tickTimers c).V = s.V := rfl
@[simp] theorem State.tickTimers_I (s : State) (c : Bool) : (s.tickTimers c).I = s.I := rfl
@[simp] theorem State.tickTimers_pc (s : State) (c : Bool) : (s.tickTimers c).pc = s.pc := rfl
@[simp] theorem State.tickTimers_sp (s : State) (c : Bool) : (s.tickTimers c).sp = s.sp := rfl
@[simp] theorem State.tickTimers_stack (s : State) (c : Bool) : (s.tickTimers c).stack = s.stack := rfl
@[simp] theorem State.tickTimers_key (s : State) (c : Bool) : (s.tickTimers c).key = s.key := rfl
@[simp] theorem State.tickTimers_disp (s : State) (c : Bool) : (s.tickTimers c).disp = s.disp := rfl
@[simp] theorem State.tickTimers_memory (s : State) (c : Bool) : (s.tickTimers c).memory = s.memory := rfl
@[simp] theorem State.tickTimers_ir (s : State) (c : Bool) : (s.tickTimers c).ir = s.ir := rfl
@[simp] theorem State.tickTimers_cfg (s : State) (c : Bool) : (s.tickTimers c).cfg = s.cfg := rfl
@[simp] theorem State.tickTimers_inputs (s : State) (c : Bool) : (s.tickTimers c).inputs = s.inputs := rfl
@[simp] theorem State.tickTimers_draws (s : State) (c : Bool) : (s.tickTimers c).draws = s.draws := rfl
@[simp] theorem State.tickTimers_reg (s : State) (c : Bool) (r : RegNum) : (s.tickTimers c).reg r = s.reg r := rfl
@[simp] theorem State.tickTimers_readByte (s : State) (c : Bool) (b : Nat) : (s.tickTimers c).readByte b = s.readByte b := rfl
@[simp] theorem State.tickTimers_stackEntry (s : State) (c : Bool) (j : Nat) : (s.tickTimers c).stackEntry j = s.stackEntry j := rfl
@[simp] theorem State.tickTimers_keyPressed (s : State) (c : Bool) (k : Fin 16) : (s.tickTimers c).keyPressed k = s.keyPressed k := rfl
@[simp] theorem State.tickTimers_input (s : State) (c : Bool) : (s.tickTimers c).input = s.input := rfl
@[simp] theorem State.tickTimers_cpc (s : State) (c : Bool) : (s.tickTimers c).cpc = s.cpc := rfl

/-! ### nextInput -/

@[simp] theorem State.nextInput_V (s : State) : (s.nextInput).V = s.V := by
  unfold State.nextInput; split <;> rfl
@[simp] theorem State.nextInput_I (s : State) : (s.nextInput).I = s.I := by
  unfold State.nextInput; split <;> rfl
@[simp] theorem State.nextInput_pc (s : State) : (s.nextInput).pc = s.pc := by
  unfold State.nextInput; split <;> rfl
@[simp] theorem State.nextInput_sp (s : State) : (s.nextInput).sp = s.sp := by
  unfold State.nextInput; split <;> rfl
@[simp] theorem State.nextInput_stack (s : State) : (s.nextInput).stack = s.stack := by
  unfold State.nextInput; split <;> rfl
@[simp] theorem State.nextInput_DT (s : State) : (s.nextInput).DT = s.DT := by
  unfold State.nextInput; split <;> rfl
@[simp] theorem State.nextInput_ST (s : State) : (s.nextInput).ST = s.ST := by
  unfold State.nextInput; split <;> rfl
@[simp] theorem State.nextInput_key (s : State) : (s.nextInput).key = s.key := by
  unfold State.nextInput; split <;> rfl
@[simp] theorem State.nextInput_disp (s : State) : (s.nextInput).disp = s.disp := by
  unfold State.nextInput; split <;> rfl
@[simp] theorem State.nextInput_memory (s : State) : (s.nextInput).memory = s.memory := by
  unfold State.nextInput; split <;> rfl
@[simp] theorem State.nextInput_ir (s : State) : (s.nextInput).ir = s.ir := by
  unfold State.nextInput; split <;> rfl
@[simp] theorem State.nextInput_cfg (s : State) : (s.nextInput).cfg = s.cfg := by
  unfold State.nextInput; split <;> rfl
@[simp] theorem State.nextInput_reg (s : State) (r : RegNum) : (s.nextInput).reg r = s.reg r := by
  simp [State.reg]
@[simp] theorem State.nextInput_readByte (s : State) (b : Nat) : (s.nextInput).readByte b = s.readByte b := by
  simp [State.readByte]
@[simp] theorem State.nextInput_stackEntry (s : State) (j : Nat) : (s.nextInput).stackEntry j = s.stackEntry j := by
  simp [State.stackEntry]
@[simp] theorem State.nextInput_keyPressed (s : State) (k : Fin 16) : (s.nextInput).keyPressed k = s.keyPressed k := by
  simp [State.keyPressed]
@[simp] theorem State.nextInput_cpc (s : State) : (s.nextInput).cpc = s.cpc := by
  simp [State.cpc]

/-! ### complete -/

@[simp] theorem State.complete_V (s : State) (w : Word) : (s.complete w).V = s.V := by
  unfold State.complete State.nextInput; split <;> rfl
@[simp] theorem State.complete_I (s : State) (w : Word) : (s.complete w).I = s.I := by
  unfold State.complete State.nextInput; split <;> rfl
@[simp] theorem State.complete_pc (s : State) (w : Word) : (s.complete w).pc = s.pc := by
  unfold State.complete State.nextInput; split <;> rfl
@[simp] theorem State.complete_sp (s : State) (w : Word) : (s.complete w).sp = s.sp := by
  unfold State.complete State.nextInput; split <;> rfl
@[simp] theorem State.complete_stack (s : State) (w : Word) : (s.complete w).stack = s.stack := by
  unfold State.complete State.nextInput; split <;> rfl
@[simp] theorem State.complete_key (s : State) (w : Word) : (s.complete w).key = s.key := by
  unfold State.complete State.nextInput; split <;> rfl
@[simp] theorem State.complete_disp (s : State) (w : Word) : (s.complete w).disp = s.disp := by
  unfold State.complete State.nextInput; split <;> rfl
@[simp] theorem State.complete_memory (s : State) (w : Word) : (s.complete w).memory = s.memory := by
  unfold State.complete State.nextInput; split <;> rfl
@[simp] theorem State.complete_cfg (s : State) (w : Word) : (s.complete w).cfg = s.cfg := by
  unfold State.complete State.nextInput; split <;> rfl
@[simp] theorem State.complete_reg (s : State) (w : Word) (r : RegNum) : (s.complete w).reg r = s.reg r := by
  simp [State.reg]
@[simp] theorem State.complete_readByte (s : State) (w : Word) (b : Nat) : (s.complete w).readByte b = s.readByte b := by
  simp [State.readByte]
@[simp] theorem State.complete_stackEntry (s : State) (w : Word) (j : Nat) : (s.complete w).stackEntry j = s.stackEntry j := by
  simp [State.stackEntry]
@[simp] theorem State.complete_keyPressed (s : State) (w : Word) (k : Fin 16) : (s.complete w).keyPressed k = s.keyPressed k := by
  simp [State.keyPressed]
@[simp] theorem State.complete_cpc (s : State) (w : Word) : (s.complete w).cpc = s.cpc := by
  simp [State.cpc]

/-! ### What each update writes -/

@[simp] theorem State.reg_setReg_self (s : State) (x : RegNum) (v : Byte) : (s.setReg x v).reg x = v := by
  simp [State.reg, State.setReg]

theorem State.reg_setReg_ne (s : State) {x r : RegNum} (v : Byte) (h : r ≠ x) : (s.setReg x v).reg r = s.reg r := by
  have : x.val ≠ r.val := fun e => h (Fin.ext e.symm)
  simp [State.reg, State.setReg, Vector.getElem_set_ne, this]

theorem State.reg_setReg (s : State) (x r : RegNum) (v : Byte) :
    (s.setReg x v).reg r = if r = x then v else s.reg r := by
  by_cases h : r = x
  · simp [h]
  · simp [h, State.reg_setReg_ne]

@[simp] theorem State.reg_setRegThenFlag_flag (s : State) (x : RegNum) (v : Byte) (f : Bool) :
    (s.setRegThenFlag x v f).reg VF = if f then 1 else 0 := by
  simp [State.setRegThenFlag]

theorem State.reg_setRegThenFlag_result (s : State) {x : RegNum} (v : Byte) (f : Bool) (h : x ≠ VF) :
    (s.setRegThenFlag x v f).reg x = v := by
  simp [State.setRegThenFlag, State.reg_setReg_ne _ _ h]

theorem State.reg_setRegThenFlag_ne (s : State) {x r : RegNum} (v : Byte) (f : Bool) (h : r ≠ x) (hf : r ≠ VF) :
    (s.setRegThenFlag x v f).reg r = s.reg r := by
  simp [State.setRegThenFlag, State.reg_setReg_ne, h, hf]

@[simp] theorem State.reg_setRegs (s : State) (vals : List Byte) (r : RegNum) :
    (s.setRegs vals).reg r = (vals[r.val]?).getD (s.reg r) := by
  simp [State.reg, State.setRegs]

@[simp] theorem State.skipIf_pc (s : State) (c : Bool) : (s.skipIf c).pc = if c then s.pc + 2 else s.pc := rfl

@[simp] theorem State.advance_pc (s : State) : s.advance.pc = s.pc + 2 := rfl

@[simp] theorem State.advance_cpc (s : State) : s.advance.cpc = s.pc := by
  simp [State.cpc]

@[simp] theorem State.push_sp (s : State) (a : Word) : (s.push a).sp = s.sp + 1 := rfl

theorem State.push_stackEntry (s : State) (a : Word) (j : Nat) (h : s.sp.toNat < 16) :
    (s.push a).stackEntry j = if j = s.sp.toNat then a else s.stackEntry j := by
  by_cases hj : j = s.sp.toNat
  · subst hj; simp [State.stackEntry, State.push, h]
  · simp [State.stackEntry, State.push, hj, Vector.getElem?_setIfInBounds_ne (Ne.symm hj)]

@[simp] theorem State.popPc_sp (s : State) : s.popPc.sp = s.sp - 1 := rfl

@[simp] theorem State.popPc_pc (s : State) : s.popPc.pc = s.stackEntry (s.sp - 1).toNat := rfl

@[simp] theorem State.tickTimers_DT (s : State) (c : Bool) :
    (s.tickTimers c).DT = if c then tickTimer s.DT else s.DT := rfl

@[simp] theorem State.tickTimers_ST (s : State) (c : Bool) :
    (s.tickTimers c).ST = if c then tickTimer s.ST else s.ST := rfl

@[simp] theorem State.complete_DT (s : State) (w : Word) :
    (s.complete w).DT = if s.input.tick then tickTimer s.DT else s.DT := by
  simp [State.complete]

@[simp] theorem State.complete_ST (s : State) (w : Word) :
    (s.complete w).ST = if s.input.tick then tickTimer s.ST else s.ST := by
  simp [State.complete]

@[simp] theorem State.complete_ir (s : State) (w : Word) : (s.complete w).ir = w := by
  simp [State.complete]

theorem State.complete_inputs (s : State) (w : Word) : (s.complete w).inputs = s.inputs.tail := by
  unfold State.complete State.nextInput; cases h : s.inputs <;> simp [State.tickTimers, h]

@[simp] theorem State.drawSprite_flag (s : State) (x y : RegNum) (rows : List Byte) :
    (s.drawSprite x y rows).reg VF =
      if (drawPoints s.disp false
        (spritePoints s.cfg.spriteEdge ((s.reg x).toNat % 64) ((s.reg y).toNat % 32) rows)).2 then 1 else 0 := by
  simp [State.drawSprite]

theorem State.drawSprite_reg_ne (s : State) (x y : RegNum) (rows : List Byte) {r : RegNum} (h : r ≠ VF) :
    (s.drawSprite x y rows).reg r = s.reg r := by
  simp only [State.drawSprite, State.reg_setReg_ne _ _ h]; rfl

@[simp] theorem State.drawSprite_disp (s : State) (x y : RegNum) (rows : List Byte) :
    (s.drawSprite x y rows).disp =
      (drawPoints s.disp false
        (spritePoints s.cfg.spriteEdge ((s.reg x).toNat % 64) ((s.reg y).toNat % 32) rows)).1 := rfl

end Sys2Proof.Machine
end

