-- ==== Sys2Proof/Laws/Memory.lean ====
section
/-! SUPPORT. The laws of memory: a read after a write, the canonical form under every memory operation, the font, and what a
sequence of stores leaves at an address. -/

namespace Sys2Proof.Machine

/-! ### Lists of cells -/

@[simp] theorem Memory.lookup_insert_self (a : Nat) (b : Byte) (m : Memory) :
    (Memory.insert a b m).lookup a = some b := by
  induction m with
  | nil => simp [Memory.insert]
  | cons p rest ih =>
    obtain ⟨k, v⟩ := p
    simp only [Memory.insert]
    split
    · simp
    · split
      · simp
      · rename_i h1 h2
        simp [List.lookup_cons, beq_eq_false_iff_ne.mpr h2, ih]

theorem Memory.lookup_insert_ne {a c : Nat} (b : Byte) (m : Memory) (h : c ≠ a) :
    (Memory.insert a b m).lookup c = m.lookup c := by
  induction m with
  | nil => simp [Memory.insert, List.lookup_cons, beq_eq_false_iff_ne.mpr h]
  | cons p rest ih =>
    obtain ⟨k, v⟩ := p
    simp only [Memory.insert]
    split
    · simp [List.lookup_cons, beq_eq_false_iff_ne.mpr h]
    · split
      · rename_i h2
        subst h2
        simp [List.lookup_cons, beq_eq_false_iff_ne.mpr h]
      · simp [List.lookup_cons, ih]

@[simp] theorem Memory.lookup_erase_self (a : Nat) (m : Memory) : (Memory.erase a m).lookup a = none := by
  induction m with
  | nil => rfl
  | cons p rest ih =>
    obtain ⟨k, v⟩ := p
    simp only [Memory.erase]
    split
    · exact ih
    · rename_i h
      simp [List.lookup_cons, beq_eq_false_iff_ne.mpr (Ne.symm h), ih]

theorem Memory.lookup_erase_ne {a c : Nat} (m : Memory) (h : c ≠ a) :
    (Memory.erase a m).lookup c = m.lookup c := by
  induction m with
  | nil => rfl
  | cons p rest ih =>
    obtain ⟨k, v⟩ := p
    simp only [Memory.erase]
    split
    · rename_i hk
      subst hk
      simp [List.lookup_cons, beq_eq_false_iff_ne.mpr h, ih]
    · simp [List.lookup_cons, ih]

theorem Memory.mem_insert {a : Nat} {b : Byte} {m : Memory} {p : Host.Cell} (h : p ∈ Memory.insert a b m) :
    p = (a, b) ∨ p ∈ m := by
  induction m with
  | nil => simpa [Memory.insert] using h
  | cons q rest ih =>
    obtain ⟨k, v⟩ := q
    simp only [Memory.insert] at h
    split at h
    · simpa using h
    · split at h
      · simp only [List.mem_cons] at h ⊢
        tauto
      · simp only [List.mem_cons] at h ⊢
        rcases h with h | h
        · exact .inr (.inl h)
        · rcases ih h with h | h <;> tauto

theorem Memory.mem_erase {a : Nat} {m : Memory} {p : Host.Cell} (h : p ∈ Memory.erase a m) : p ∈ m := by
  induction m with
  | nil => exact h
  | cons q rest ih =>
    obtain ⟨k, v⟩ := q
    simp only [Memory.erase] at h
    split at h
    · exact List.mem_cons_of_mem _ (ih h)
    · simp only [List.mem_cons] at h ⊢
      exact h.imp_right ih

theorem Memory.mem_write {font : Vector Byte 80} {a : Nat} {b : Byte} {m : Memory} {p : Host.Cell}
    (h : p ∈ Memory.write font m a b) : p = (a, b) ∨ p ∈ m := by
  unfold Memory.write at h
  split at h
  · exact .inr (Memory.mem_erase h)
  · exact Memory.mem_insert h

theorem Memory.pairwise_insert {a : Nat} {b : Byte} {m : Memory} (h : m.Pairwise (fun p q => p.1 < q.1)) :
    (Memory.insert a b m).Pairwise (fun p q => p.1 < q.1) := by
  induction m with
  | nil => simp [Memory.insert]
  | cons q rest ih =>
    obtain ⟨k, v⟩ := q
    obtain ⟨hq, hr⟩ := List.pairwise_cons.mp h
    simp only [Memory.insert]
    split
    · rename_i hlt
      refine List.pairwise_cons.mpr ⟨fun p hp => ?_, h⟩
      rcases List.mem_cons.mp hp with rfl | hp
      · exact hlt
      · exact Nat.lt_trans hlt (hq p hp)
    · split
      · rename_i heq
        exact List.pairwise_cons.mpr ⟨fun p hp => heq ▸ hq p hp, hr⟩
      · refine List.pairwise_cons.mpr ⟨fun p hp => ?_, ih hr⟩
        rcases Memory.mem_insert hp with rfl | hp
        · simp only; omega
        · exact hq p hp

theorem Memory.pairwise_erase {a : Nat} {m : Memory} (h : m.Pairwise (fun p q => p.1 < q.1)) :
    (Memory.erase a m).Pairwise (fun p q => p.1 < q.1) := by
  induction m with
  | nil => exact h
  | cons q rest ih =>
    obtain ⟨k, v⟩ := q
    obtain ⟨hq, hr⟩ := List.pairwise_cons.mp h
    simp only [Memory.erase]
    split
    · exact ih hr
    · exact List.pairwise_cons.mpr ⟨fun p hp => hq p (Memory.mem_erase hp), ih hr⟩

/-! ### Read after write -/

@[simp] theorem Memory.read_write_self (font : Vector Byte 80) (m : Memory) (a : Nat) (b : Byte) :
    Memory.read font (Memory.write font m a b) a = b := by
  by_cases h : b = Memory.unlisted font a
  · simp [Memory.read, Memory.write, ← h]
  · simp [Memory.read, Memory.write, h]

theorem Memory.read_write_ne (font : Vector Byte 80) (m : Memory) {a c : Nat} (b : Byte) (h : c ≠ a) :
    Memory.read font (Memory.write font m a b) c = Memory.read font m c := by
  by_cases hb : b = Memory.unlisted font a
  · simp [Memory.read, Memory.write, ← hb, Memory.lookup_erase_ne _ h]
  · simp [Memory.read, Memory.write, hb, Memory.lookup_insert_ne _ _ h]

@[simp] theorem State.readByte_writeByte_self (s : State) (a : Nat) (b : Byte) : (s.writeByte a b).readByte a = b := by
  simp [State.readByte, State.writeByte]

theorem State.readByte_writeByte_ne (s : State) {a c : Nat} (b : Byte) (h : c ≠ a) :
    (s.writeByte a b).readByte c = s.readByte c := by
  simp [State.readByte, State.writeByte, Memory.read_write_ne, h]

theorem State.readByte_storeByte_self (s : State) {a : Nat} (b : Byte) (h : ¬ InFont a) :
    (s.storeByte a b).readByte a = b := by
  simp [State.storeByte, h]

theorem State.readByte_storeByte_ne (s : State) {a c : Nat} (b : Byte) (h : c ≠ a) :
    (s.storeByte a b).readByte c = s.readByte c := by
  unfold State.storeByte
  split
  · rfl
  · exact s.readByte_writeByte_ne b h

/-- No store reaches the font region (R44). -/
theorem State.readByte_storeByte_font (s : State) (a : Nat) (b : Byte) {c : Nat} (h : InFont c) :
    (s.storeByte a b).readByte c = s.readByte c := by
  unfold State.storeByte
  split
  · rfl
  · rename_i ha
    exact s.readByte_writeByte_ne b (fun e => ha (e ▸ h))

theorem State.readByte_storeBytes_font (s : State) (cells : List (Nat × Byte)) {c : Nat} (h : InFont c) :
    (s.storeBytes cells).readByte c = s.readByte c := by
  induction cells generalizing s with
  | nil => rfl
  | cons p rest ih => obtain ⟨a, b⟩ := p; simp only [State.storeBytes, ih, s.readByte_storeByte_font a b h]

/-- A byte none of the stores names reads as before. -/
theorem State.readByte_storeBytes_other (s : State) (cells : List (Nat × Byte)) {c : Nat}
    (h : ∀ p ∈ cells, p.1 ≠ c) : (s.storeBytes cells).readByte c = s.readByte c := by
  induction cells generalizing s with
  | nil => rfl
  | cons p rest ih =>
    obtain ⟨a, b⟩ := p
    simp only [State.storeBytes]
    rw [ih _ (fun q hq => h q (List.mem_cons_of_mem _ hq))]
    exact s.readByte_storeByte_ne b (Ne.symm (h (a, b) (by simp)))

/-- Stores to distinct addresses each leave their own byte, outside the font. -/
theorem State.readByte_storeBytes_mem (s : State) (cells : List (Nat × Byte)) {a : Nat} {b : Byte}
    (hd : cells.Pairwise (fun p q => p.1 ≠ q.1)) (h : (a, b) ∈ cells) (hf : ¬ InFont a) :
    (s.storeBytes cells).readByte a = b := by
  induction cells generalizing s with
  | nil => simp at h
  | cons p rest ih =>
    obtain ⟨hp, hr⟩ := List.pairwise_cons.mp hd
    rcases List.mem_cons.mp h with rfl | hm
    · simp only [State.storeBytes]
      rw [State.readByte_storeBytes_other _ _ (fun q hq => (hp q hq).symm)]
      exact s.readByte_storeByte_self b hf
    · obtain ⟨a', b'⟩ := p
      simp only [State.storeBytes]
      exact ih _ hr hm

/-! ### The canonical form -/

theorem Memory.write_wf {font : Vector Byte 80} {m : Memory} {a : Nat} {b : Byte} (h : Memory.wf font m)
    (ha : a < memSize) : Memory.wf font (Memory.write font m a b) := by
  unfold Memory.write
  split
  · exact ⟨Memory.pairwise_erase h.1, fun p hp => h.2 p (Memory.mem_erase hp)⟩
  · rename_i hb
    refine ⟨Memory.pairwise_insert h.1, fun p hp => ?_⟩
    rcases Memory.mem_insert hp with rfl | hp
    · exact ⟨ha, hb⟩
    · exact h.2 p hp

theorem State.writeByte_wf {s : State} {a : Nat} {b : Byte} (h : Memory.wf s.cfg.font s.memory) (ha : a < memSize) :
    Memory.wf s.cfg.font (s.writeByte a b).memory := Memory.write_wf h ha

theorem State.storeByte_wf {s : State} {a : Nat} {b : Byte} (h : Memory.wf s.cfg.font s.memory) (ha : a < memSize) :
    Memory.wf s.cfg.font (s.storeByte a b).memory := by
  unfold State.storeByte
  split
  · exact h
  · exact Memory.write_wf h ha

theorem State.storeBytes_wf {s : State} {cells : List (Nat × Byte)} (h : Memory.wf s.cfg.font s.memory)
    (ha : ∀ p ∈ cells, p.1 < memSize) : Memory.wf s.cfg.font (s.storeBytes cells).memory := by
  induction cells generalizing s with
  | nil => exact h
  | cons p rest ih =>
    obtain ⟨a, b⟩ := p
    have h1 := State.storeByte_wf (b := b) h (ha (a, b) (by simp))
    have := @ih (s.storeByte a b) (by simpa using h1) (fun q hq => ha q (List.mem_cons_of_mem _ hq))
    simpa [State.storeBytes] using this

theorem State.placeWord_wf {s : State} (w : Word) (h : Memory.wf s.cfg.font s.memory) :
    Memory.wf s.cfg.font (s.placeWord w).memory := by
  have lt : ∀ n, n % 0x1000 < memSize := fun n => Nat.mod_lt _ (by decide)
  exact Memory.write_wf (Memory.write_wf h (lt _)) (lt _)

theorem copyBytes_wf {s : State} {a : Nat} {bytes : List Byte} (h : Memory.wf s.cfg.font s.memory)
    (ha : a + bytes.length ≤ memSize) : Memory.wf (copyBytes s a bytes).cfg.font (copyBytes s a bytes).memory := by
  induction bytes generalizing s a with
  | nil => exact h
  | cons b rest ih =>
    simp only [List.length_cons] at ha
    exact ih (s := s.writeByte a b) (Memory.write_wf h (by omega)) (by omega)

theorem reset_memory_wf : Memory.wf State.reset.cfg.font State.reset.memory := by
  simp [State.reset, State.resetWith, Memory.wf]

/-- A byte of the font region that is not listed reads as `FONT` (R38). -/
theorem State.readByte_font {s : State} (h : ∀ p ∈ s.memory, ¬ InFont p.1) {a : Nat} (ha : InFont a) :
    s.readByte a = Memory.unlisted s.cfg.font a := by
  have : s.memory.lookup a = none := by
    rw [List.lookup_eq_none_iff]
    intro p hp
    simp only [ne_eq, bne_iff_ne]
    exact fun e => h p hp (e ▸ ha)
  simp [State.readByte, Memory.read, this]

end Sys2Proof.Machine
end

