-- ==== Sys2Proof/Laws/Checked.lean ====
section
/-! SUPPORT. What the address check answers (spec/20_memory.md rules R42, R43): a checked access either runs on the addresses
modulo 0x1000, or raises with the lowest failing address. -/

namespace Sys2Proof.Machine

theorem checkAddr_ok {mode : AddrMode} {a c : Nat} (h : checkAddr mode a = .ok c) :
    c = a % 0x1000 ∧ (mode = .wrap ∨ a ≤ 0xFFF) := by
  unfold checkAddr at h
  split at h
  · rename_i ha
    simp only [Except.ok.injEq] at h
    exact ⟨by omega, .inr ha⟩
  · split at h
    · simp only [Except.ok.injEq] at h
      exact ⟨h.symm, .inl rfl⟩
    · simp at h

theorem checkAddr_of_le {mode : AddrMode} {a : Nat} (h : mode = .wrap ∨ a ≤ 0xFFF) :
    checkAddr mode a = .ok (a % 0x1000) := by
  unfold checkAddr
  split
  · simp only [Except.ok.injEq]; omega
  · rcases h with rfl | h
    · rfl
    · contradiction

theorem checkAddr_fault {a : Nat} (h : 0xFFF < a) : checkAddr .fault a = .error a := by
  simp [checkAddr, Nat.not_le.mpr h]

/-- When every address passes, the checked addresses are the addresses modulo 0x1000. -/
theorem checkAddrs_of_le {mode : AddrMode} {as : List Nat} (h : mode = .wrap ∨ ∀ a ∈ as, a ≤ 0xFFF) :
    checkAddrs mode as = .ok (as.map (· % 0x1000)) := by
  induction as with
  | nil => rfl
  | cons a rest ih =>
    have h1 : checkAddr mode a = .ok (a % 0x1000) := checkAddr_of_le (h.imp_right fun h => h a (by simp))
    have h2 := ih (h.imp_right fun h b hb => h b (List.mem_cons_of_mem _ hb))
    simp [checkAddrs, h1, h2]

theorem checkAddrs_ok {mode : AddrMode} {as cs : List Nat} (h : checkAddrs mode as = .ok cs) :
    cs = as.map (· % 0x1000) ∧ (mode = .wrap ∨ ∀ a ∈ as, a ≤ 0xFFF) := by
  induction as generalizing cs with
  | nil => simp [checkAddrs] at h; simp [h]
  | cons a rest ih =>
    simp only [checkAddrs] at h
    split at h
    · simp at h
    · rename_i c hc
      split at h
      · simp at h
      · rename_i cs' hcs
        obtain ⟨h1, h2⟩ := checkAddr_ok hc
        obtain ⟨h3, h4⟩ := ih hcs
        simp only [Except.ok.injEq] at h
        subst h h1 h3
        refine ⟨rfl, ?_⟩
        rcases h2 with h2 | h2
        · exact .inl h2
        · refine h4.imp_right fun h4 b hb => ?_
          rcases List.mem_cons.mp hb with rfl | hb
          · exact h2
          · exact h4 b hb

theorem checkAddrs_append_fault {as bs : List Nat} {b : Nat} (ha : ∀ a ∈ as, a ≤ 0xFFF) (hb : 0xFFF < b) :
    checkAddrs .fault (as ++ b :: bs) = .error b := by
  induction as with
  | nil => simp [checkAddrs, checkAddr_fault hb]
  | cons a rest ih =>
    have h1 : checkAddr .fault a = .ok (a % 0x1000) := checkAddr_of_le (.inr (ha a (by simp)))
    simp [checkAddrs, h1, ih fun b hb => ha b (List.mem_cons_of_mem _ hb)]

/-! ### The one addressing mode -/

@[simp] theorem State.length_indexAddrs (s : State) (n : Nat) : (s.indexAddrs n).length = n := by
  simp [State.indexAddrs]

@[simp] theorem State.getElem_indexAddrs (s : State) (n k : Nat) (h : k < (s.indexAddrs n).length) :
    (s.indexAddrs n)[k] = s.I.toNat + k := by
  simp [State.indexAddrs]

/-- An access that reaches all its addresses runs on them modulo 0x1000 (R42). -/
theorem withChecked_of_reaches {s : State} {n : Nat} (k : List Nat → Result) (h : s.Reaches n) :
    withChecked s (s.indexAddrs n) k = k ((s.indexAddrs n).map (· % 0x1000)) := by
  have : checkAddrs s.cfg.addrMode (s.indexAddrs n) = .ok ((s.indexAddrs n).map (· % 0x1000)) := by
    apply checkAddrs_of_le
    rcases h with h | h | h
    · exact .inl h
    · refine .inr fun a ha => ?_
      simp only [State.indexAddrs, List.mem_map, List.mem_range] at ha
      obtain ⟨j, hj, rfl⟩ := ha
      omega
    · subst h
      exact .inr (by simp [State.indexAddrs])
  simp [withChecked, this]

/-- An access that does not reach raises, with the lowest failing address: `I` itself if it is past memory, else 0x1000
(R129). -/
theorem withChecked_of_not_reaches {s : State} {n : Nat} (k : List Nat → Result) (h : ¬ s.Reaches n) :
    withChecked s (s.indexAddrs n) k = .fault (.addressOutOfRange s.cpc (max s.I.toNat 0x1000)) := by
  simp only [State.Reaches, not_or] at h
  obtain ⟨hm, hn, h0⟩ := h
  have hmode : s.cfg.addrMode = .fault := by
    cases hc : s.cfg.addrMode <;> simp_all
  have hsplit : s.indexAddrs n =
      (List.range (0x1000 - s.I.toNat)).map (s.I.toNat + ·) ++ max s.I.toNat 0x1000 ::
        (List.range (n - (0x1000 - s.I.toNat) - 1)).map (max s.I.toNat 0x1000 + 1 + ·) := by
    apply List.ext_getElem
    · simp; omega
    · intro i h1 h2
      simp only [State.length_indexAddrs] at h1
      simp only [State.getElem_indexAddrs]
      by_cases hi : i < 0x1000 - s.I.toNat
      · rw [List.getElem_append_left (by simpa using hi)]; simp
      · rw [List.getElem_append_right (by simpa using hi)]
        simp only [List.length_map, List.length_range]
        rcases Nat.eq_or_lt_of_le (Nat.not_lt.mp hi) with he | hl
        · simp [← he]; omega
        · rw [List.getElem_cons, dif_neg (by omega)]; simp; omega
  have hlow : ∀ a ∈ (List.range (0x1000 - s.I.toNat)).map (s.I.toNat + ·), a ≤ 0xFFF := by
    intro a ha
    simp only [List.mem_map, List.mem_range] at ha
    obtain ⟨j, hj, rfl⟩ := ha
    omega
  unfold withChecked
  rw [hmode, hsplit, checkAddrs_append_fault hlow (by omega)]
  rfl

/-- The one inversion of a checked access: it runs on the addresses modulo 0x1000, or it raises. -/
theorem withChecked_cases (s : State) (n : Nat) (k : List Nat → Result) :
    (s.Reaches n ∧ withChecked s (s.indexAddrs n) k = k ((s.indexAddrs n).map (· % 0x1000))) ∨
    (¬ s.Reaches n ∧
      withChecked s (s.indexAddrs n) k = .fault (.addressOutOfRange s.cpc (max s.I.toNat 0x1000))) := by
  by_cases h : s.Reaches n
  · exact .inl ⟨h, withChecked_of_reaches k h⟩
  · exact .inr ⟨h, withChecked_of_not_reaches k h⟩

/-- The checked addresses lie in memory. -/
theorem checked_lt (s : State) (n : Nat) : ∀ a ∈ (s.indexAddrs n).map (· % 0x1000), a < memSize := by
  intro a ha
  simp only [List.mem_map] at ha
  obtain ⟨b, -, rfl⟩ := ha
  exact Nat.mod_lt _ (by decide)

/-- The checked addresses of one access are distinct: no instruction accesses more than 16 bytes (R40). -/
theorem checked_nodup (s : State) {n : Nat} (h : n ≤ 16) :
    ((s.indexAddrs n).map (· % 0x1000)).Pairwise (· ≠ ·) := by
  rw [List.pairwise_iff_getElem]
  intro i j hi hj hij
  simp only [List.length_map, State.length_indexAddrs] at hi hj
  simp only [List.getElem_map, State.getElem_indexAddrs]
  omega

end Sys2Proof.Machine
end

