-- ==== Sys2Proof/Laws/Decode.lean ====
section
/-! SUPPORT. The laws of the encoding: the fields of a word put together from fields, and a word put together from its own
fields. -/

namespace Sys2Proof

/-! ### The fields of a form -/

@[simp] theorem fieldOp_formNNN (op : Nibble) (nnn : Addr12) : fieldOp (formNNN op nnn) = op := by
  apply BitVec.eq_of_getLsbD_eq; intro i hi
  have h1 : ¬ 12 + i < 12 := by omega
  have h2 : 12 + i - 12 = i := by omega
  simp only [fieldOp, formNNN, BitVec.getLsbD_extractLsb', BitVec.getLsbD_append, hi, h1, h2, decide_true,
    Bool.true_and, if_false]

@[simp] theorem fieldNNN_formNNN (op : Nibble) (nnn : Addr12) : fieldNNN (formNNN op nnn) = nnn := by
  apply BitVec.eq_of_getLsbD_eq; intro i hi
  simp only [fieldNNN, formNNN, BitVec.getLsbD_extractLsb', BitVec.getLsbD_append, Nat.zero_add, hi, decide_true,
    Bool.true_and, if_true]

@[simp] theorem fieldOp_formXKK (op : Nibble) (x : RegNum) (kk : Byte) : fieldOp (formXKK op x kk) = op := by
  apply BitVec.eq_of_getLsbD_eq; intro i hi
  have h1 : ¬ 12 + i < 8 := by omega
  have h2 : ¬ 12 + i - 8 < 4 := by omega
  have h3 : 12 + i - 8 - 4 = i := by omega
  simp only [fieldOp, formXKK, BitVec.getLsbD_extractLsb', BitVec.getLsbD_append, hi, h1, h2, h3, decide_true,
    Bool.true_and, if_false]

@[simp] theorem fieldX_formXKK (op : Nibble) (x : RegNum) (kk : Byte) : fieldX (formXKK op x kk) = x := by
  have : (formXKK op x kk).extractLsb' 8 4 = BitVec.ofFin x := by
    apply BitVec.eq_of_getLsbD_eq; intro i hi
    have h1 : ¬ 8 + i < 8 := by omega
    have h3 : 8 + i - 8 = i := by omega
    simp only [formXKK, BitVec.getLsbD_extractLsb', BitVec.getLsbD_append, hi, h1, h3, decide_true,
      Bool.true_and, if_false, if_true]
  rw [fieldX, this]

@[simp] theorem fieldKK_formXKK (op : Nibble) (x : RegNum) (kk : Byte) : fieldKK (formXKK op x kk) = kk := by
  apply BitVec.eq_of_getLsbD_eq; intro i hi
  simp only [fieldKK, formXKK, BitVec.getLsbD_extractLsb', BitVec.getLsbD_append, Nat.zero_add, hi, decide_true,
    Bool.true_and, if_true]

/-- Format `XYN` is format `XKK` with the low byte `y ++ n`. -/
theorem formXYN_eq (op : Nibble) (x y : RegNum) (n : Nibble) :
    formXYN op x y n = formXKK op x ((BitVec.ofFin y : Nibble) ++ n) := by
  apply BitVec.eq_of_getLsbD_eq; intro i hi
  simp only [formXYN, formXKK, BitVec.getLsbD_append]
  by_cases h1 : i < 4
  · simp [h1, show i < 8 by omega]
  · by_cases h2 : i < 8
    · simp [h1, h2, show i - 4 < 4 by omega]
    · have h3 : ¬ i - 4 < 4 := by omega
      have h4 : i - 4 - 4 = i - 8 := by omega
      simp [h1, h2, h3, h4]

@[simp] theorem fieldOp_formXYN (op : Nibble) (x y : RegNum) (n : Nibble) : fieldOp (formXYN op x y n) = op := by
  simp [formXYN_eq]

@[simp] theorem fieldX_formXYN (op : Nibble) (x y : RegNum) (n : Nibble) : fieldX (formXYN op x y n) = x := by
  simp [formXYN_eq]

theorem fieldY_eq (w : Word) : fieldY w = ((fieldKK w).extractLsb' 4 4).toFin := by
  have : w.extractLsb' 4 4 = (fieldKK w).extractLsb' 4 4 := by
    apply BitVec.eq_of_getLsbD_eq; intro i hi
    simp [fieldKK, hi]
  rw [fieldY, this]

theorem fieldN_eq (w : Word) : fieldN w = (fieldKK w).extractLsb' 0 4 := by
  apply BitVec.eq_of_getLsbD_eq; intro i hi
  simp [fieldN, fieldKK, hi]

@[simp] theorem fieldY_formXYN (op : Nibble) (x y : RegNum) (n : Nibble) : fieldY (formXYN op x y n) = y := by
  have : ((BitVec.ofFin y : Nibble) ++ n).extractLsb' 4 4 = BitVec.ofFin y := by
    apply BitVec.eq_of_getLsbD_eq; intro i hi
    have h1 : ¬ 4 + i < 4 := by omega
    have h2 : 4 + i - 4 = i := by omega
    simp only [BitVec.getLsbD_extractLsb', BitVec.getLsbD_append, hi, h1, h2, decide_true, Bool.true_and, if_false]
  rw [fieldY_eq, formXYN_eq, fieldKK_formXKK]
  exact congrArg BitVec.toFin this

@[simp] theorem fieldN_formXYN (op : Nibble) (x y : RegNum) (n : Nibble) : fieldN (formXYN op x y n) = n := by
  rw [fieldN_eq, formXYN_eq, fieldKK_formXKK]
  apply BitVec.eq_of_getLsbD_eq; intro i hi
  simp only [BitVec.getLsbD_extractLsb', BitVec.getLsbD_append, Nat.zero_add, hi, decide_true, Bool.true_and, if_true]

/-! ### A word from its own fields -/

theorem formNNN_fields (w : Word) : formNNN (fieldOp w) (fieldNNN w) = w := by
  apply BitVec.eq_of_getLsbD_eq; intro i hi
  simp only [formNNN, fieldOp, fieldNNN, BitVec.getLsbD_append, BitVec.getLsbD_extractLsb']
  by_cases h : i < 12
  · simp [h]
  · simp [h, show i - 12 < 4 by omega, show 12 + (i - 12) = i by omega]

theorem formXKK_fields (w : Word) : formXKK (fieldOp w) (fieldX w) (fieldKK w) = w := by
  apply BitVec.eq_of_getLsbD_eq; intro i hi
  simp only [formXKK, fieldOp, fieldX, fieldKK, BitVec.getLsbD_append, BitVec.ofFin_toFin,
    BitVec.getLsbD_extractLsb']
  by_cases h : i < 8
  · simp [h]
  · by_cases h2 : i - 8 < 4
    · simp [h, h2, show 8 + (i - 8) = i by omega]
    · simp [h, h2, show i - 8 - 4 < 4 by omega, show 12 + (i - 8 - 4) = i by omega]

theorem formXYN_fields (w : Word) : formXYN (fieldOp w) (fieldX w) (fieldY w) (fieldN w) = w := by
  have : (BitVec.ofFin (fieldY w) : Nibble) ++ fieldN w = fieldKK w := by
    apply BitVec.eq_of_getLsbD_eq; intro i hi
    simp only [fieldY, fieldN, fieldKK, BitVec.getLsbD_append, BitVec.ofFin_toFin, BitVec.getLsbD_extractLsb']
    by_cases h : i < 4
    · simp [h, show i < 8 by omega]
    · simp [h, show i - 4 < 4 by omega, show 4 + (i - 4) = i by omega, hi]
  rw [formXYN_eq, this, formXKK_fields]

@[simp] theorem wordOfBytes_high (hi lo : Byte) : (wordOfBytes hi lo).extractLsb' 8 8 = hi := by
  apply BitVec.eq_of_getLsbD_eq
  intro i h
  simp only [wordOfBytes, BitVec.getLsbD_extractLsb', BitVec.getLsbD_append, h]
  simp

@[simp] theorem wordOfBytes_low (hi lo : Byte) : (wordOfBytes hi lo).extractLsb' 0 8 = lo := by
  apply BitVec.eq_of_getLsbD_eq
  intro i h
  simp only [wordOfBytes, BitVec.getLsbD_extractLsb', BitVec.getLsbD_append, h]
  simp [h]

/-- The two bytes of a word make the word again (R36). -/
@[simp] theorem wordOfBytes_bytes (w : Word) : wordOfBytes (w.extractLsb' 8 8) (w.extractLsb' 0 8) = w := by
  apply BitVec.eq_of_getLsbD_eq; intro i hi
  simp only [wordOfBytes, BitVec.getLsbD_append, BitVec.getLsbD_extractLsb']
  by_cases h : i < 8
  · simp [h]
  · simp [h, show i - 8 < 8 by omega, show 8 + (i - 8) = i by omega]

/-- Decoding two bytes and whatever follows them decodes their word. -/
@[simp] theorem decode_cons_cons (hi lo : Byte) (rest : List Byte) :
    decode (hi :: lo :: rest) = .ok (decodeWord (wordOfBytes hi lo), rest) := rfl

end Sys2Proof
end

