-- ==== Sys2Proof/Laws/Display.lean ====
section
/-! SUPPORT. The laws of the display: what toggling one pixel does, which grid points a sprite has, and what drawing distinct
points does to each pixel and to the collision flag (spec/44_display.md). -/

namespace Sys2Proof.Machine

@[simp] theorem Display.pixel_clear (r : Fin 32) (c : Fin 64) : Display.clear.pixel r c = false := by
  simp [Display.pixel, Display.clear]

@[simp] theorem Display.pixel_toggle_self (d : Display) (r : Fin 32) (c : Fin 64) :
    (d.toggle r c).pixel r c = !d.pixel r c := by
  simp [Display.pixel, Display.toggle]

theorem Display.pixel_toggle_ne (d : Display) {r r' : Fin 32} {c c' : Fin 64} (h : (r', c') ≠ (r, c)) :
    (d.toggle r c).pixel r' c' = d.pixel r' c' := by
  by_cases hr : r' = r
  · subst hr
    have hc : c.val ≠ c'.val := fun e => h (by rw [Fin.ext e.symm])
    simp [Display.pixel, Display.toggle, Vector.getElem_set_ne, hc]
  · have hr' : r.val ≠ r'.val := fun e => hr (Fin.ext e.symm)
    simp [Display.pixel, Display.toggle, Vector.getElem_set_ne, hr']

/-- A point not drawn keeps its pixel. -/
theorem drawPoints_pixel_of_not_mem (d : Display) (f : Bool) {ps : List (Fin 32 × Fin 64)} {r : Fin 32} {c : Fin 64}
    (h : (r, c) ∉ ps) : (drawPoints d f ps).1.pixel r c = d.pixel r c := by
  induction ps generalizing d f with
  | nil => rfl
  | cons p rest ih =>
    obtain ⟨r', c'⟩ := p
    simp only [List.mem_cons, not_or] at h
    simp only [drawPoints, ih _ _ h.2, d.pixel_toggle_ne h.1]

/-- A point drawn once has its pixel toggled. -/
theorem drawPoints_pixel_of_mem (d : Display) (f : Bool) {ps : List (Fin 32 × Fin 64)} {r : Fin 32} {c : Fin 64}
    (hn : ps.Nodup) (h : (r, c) ∈ ps) : (drawPoints d f ps).1.pixel r c = !d.pixel r c := by
  induction ps generalizing d f with
  | nil => simp at h
  | cons p rest ih =>
    obtain ⟨hp, hr⟩ := List.nodup_cons.mp hn
    rcases List.mem_cons.mp h with rfl | hm
    · simp only [drawPoints, drawPoints_pixel_of_not_mem _ _ hp, Display.pixel_toggle_self]
    · obtain ⟨r', c'⟩ := p
      have hne : (r, c) ≠ (r', c') := fun e => hp (e ▸ hm)
      simp only [drawPoints, ih _ _ hr hm, d.pixel_toggle_ne hne]

/-- The collision flag of distinct points: one of them was set before the draw. -/
theorem drawPoints_flag (d : Display) (f : Bool) {ps : List (Fin 32 × Fin 64)} (hn : ps.Nodup) :
    (drawPoints d f ps).2 = (f || ps.any fun p => d.pixel p.1 p.2) := by
  induction ps generalizing d f with
  | nil => simp [drawPoints]
  | cons p rest ih =>
    obtain ⟨hp, hr⟩ := List.nodup_cons.mp hn
    obtain ⟨r, c⟩ := p
    have : (rest.any fun q => (d.toggle r c).pixel q.1 q.2) = rest.any fun q => d.pixel q.1 q.2 := by
      rw [Bool.eq_iff_iff, List.any_eq_true, List.any_eq_true]
      refine exists_congr fun q => and_congr_right fun hq => ?_
      rw [d.pixel_toggle_ne (fun e => hp (e ▸ hq))]
    simp [drawPoints, ih _ _ hr, this, Bool.or_assoc]

/-! ### The points of a sprite -/

theorem gridPoint_eq_some {edge : SpriteEdge} {c r : Nat} {p : Fin 32 × Fin 64} :
    gridPoint edge c r = some p ↔
      p.1.val = r % 32 ∧ p.2.val = c % 64 ∧ (edge = .clip → r < 32 ∧ c < 64) := by
  obtain ⟨⟨p1, h1⟩, ⟨p2, h2⟩⟩ := p
  cases edge with
  | clip =>
    simp only [gridPoint]
    split
    · rename_i h
      simp only [Option.some.injEq, Prod.mk.injEq, Fin.mk.injEq, true_implies]
      omega
    · rename_i h
      simp only [reduceCtorEq, false_iff, true_implies]
      tauto
  | wrap =>
    simp only [gridPoint, Option.some.injEq, Prod.mk.injEq, Fin.ext_iff, Fin.ofNat, reduceCtorEq, false_implies,
      and_true]
    omega

theorem mem_rowPoints {edge : SpriteEdge} {x0 r : Nat} {byte : Byte} {p : Fin 32 × Fin 64} :
    p ∈ rowPoints edge x0 r byte ↔
      ∃ b < 8, byte.getLsbD (7 - b) = true ∧ gridPoint edge (x0 + b) r = some p := by
  simp only [rowPoints, List.mem_filterMap, List.mem_range]
  refine exists_congr fun b => and_congr_right fun _ => ?_
  split <;> simp_all

/-- The points of a sprite: row `k` of the sprite is byte `k`, bit `7 - b` of it the point at column `x0 + b` (R117). -/
theorem mem_spritePoints {edge : SpriteEdge} {x0 y0 : Nat} {rows : List Byte} {p : Fin 32 × Fin 64} :
    p ∈ spritePoints edge x0 y0 rows ↔
      ∃ k, ∃ h : k < rows.length, ∃ b < 8,
        rows[k].getLsbD (7 - b) = true ∧ gridPoint edge (x0 + b) (y0 + k) = some p := by
  induction rows generalizing y0 with
  | nil => simp [spritePoints]
  | cons byte rest ih =>
    simp only [spritePoints, List.mem_append, mem_rowPoints, ih]
    constructor
    · rintro (⟨b, hb, h1, h2⟩ | ⟨k, hk, b, hb, h1, h2⟩)
      · exact ⟨0, by simp, b, hb, by simpa using h1, by simpa using h2⟩
      · exact ⟨k + 1, by simpa using hk, b, hb, by simpa using h1, by rw [← h2]; congr 1; omega⟩
    · rintro ⟨k, hk, b, hb, h1, h2⟩
      cases k with
      | zero => exact .inl ⟨b, hb, by simpa using h1, by simpa using h2⟩
      | succ k =>
        exact .inr ⟨k, by simpa using hk, b, hb, by simpa using h1, by rw [← h2]; congr 1; omega⟩

theorem nodup_rowPoints (edge : SpriteEdge) (x0 r : Nat) (byte : Byte) : (rowPoints edge x0 r byte).Nodup := by
  have hr : (List.range 8).Pairwise (fun a b => a < b ∧ b < 8) := by decide
  refine List.Pairwise.filterMap _ (fun a b hab p hp q hq => ?_) hr
  split at hp <;> [skip; (exact absurd hp (by simp))]
  split at hq <;> [skip; (exact absurd hq (by simp))]
  have h1 := (gridPoint_eq_some.mp hp).2.1
  have h2 := (gridPoint_eq_some.mp hq).2.1
  rintro rfl
  omega

/-- A sprite has each of its points once: it is 8 columns wide and at most 15 rows high (R114). -/
theorem nodup_spritePoints {edge : SpriteEdge} {x0 y0 : Nat} {rows : List Byte} (h : rows.length ≤ 32) :
    (spritePoints edge x0 y0 rows).Nodup := by
  induction rows generalizing y0 with
  | nil => simp [spritePoints]
  | cons byte rest ih =>
    simp only [List.length_cons] at h
    refine List.nodup_append.mpr ⟨nodup_rowPoints .., ih (by omega), fun p hp q hq => ?_⟩
    obtain ⟨b, hb, -, h1⟩ := mem_rowPoints.mp hp
    obtain ⟨k, hk, b', hb', -, h2⟩ := mem_spritePoints.mp hq
    have h3 := (gridPoint_eq_some.mp h1).1
    have h4 := (gridPoint_eq_some.mp h2).1
    rintro rfl
    omega

end Sys2Proof.Machine
end

