-- ==== Sys2Proof/Laws/PerInstr.lean ====
section
/-! SUPPORT. Per instruction: the word an instruction encodes to matches the instruction's own row of the opcode table
(spec/30_encoding.md rule R55). -/

namespace Sys2Proof

theorem and_F000 (w : Word) : w &&& 0xF000#16 = formNNN (fieldOp w) 0 := by
  apply BitVec.eq_of_getLsbD_eq; intro i hi
  simp only [formNNN, fieldOp, BitVec.getLsbD_and, BitVec.getLsbD_append, BitVec.getLsbD_extractLsb']
  interval_cases i <;> simp

theorem and_F00F (w : Word) : w &&& 0xF00F#16 = formXYN (fieldOp w) 0 0 (fieldN w) := by
  apply BitVec.eq_of_getLsbD_eq; intro i hi
  simp only [formXYN, fieldOp, fieldN, BitVec.getLsbD_and, BitVec.getLsbD_append, BitVec.getLsbD_extractLsb']
  interval_cases i <;> simp

theorem and_F0FF (w : Word) : w &&& 0xF0FF#16 = formXKK (fieldOp w) 0 (fieldKK w) := by
  apply BitVec.eq_of_getLsbD_eq; intro i hi
  simp only [formXKK, fieldOp, fieldKK, BitVec.getLsbD_and, BitVec.getLsbD_append, BitVec.getLsbD_extractLsb']
  interval_cases i <;> simp

namespace Laws.EncodesToItsRow

/-- The word of a well-formed instruction matches the row of R55 with the instruction's number. -/
def Statement (i : Instr) : Prop :=
  i.wf = true → ∀ row ∈ opcodeRows, row.1 = rowNumber i → matchesRow (encodeWord i) row = true

theorem of_row {i : Instr} (m k : Word) (n : Nat) (hi : rowNumber i = n)
    (hrow : ∀ row ∈ opcodeRows, row.1 = n → row.2 = (m, k))
    (hm : encodeWord i &&& k = m) : Statement i := by
  intro _ row hr hn
  simp [matchesRow, hrow row hr (hn.trans hi), hm]

theorem cls : Statement .cls := of_row 0x00E0 0xFFFF 1 rfl (by decide) (by decide)
theorem ret : Statement .ret := of_row 0x00EE 0xFFFF 2 rfl (by decide) (by decide)
theorem jp (a : Addr12) : Statement (.jp a) :=
  of_row 0x1000 0xF000 3 rfl (by decide) (by simp [encodeWord, and_F000]; decide)
theorem call (a : Addr12) : Statement (.call a) :=
  of_row 0x2000 0xF000 4 rfl (by decide) (by simp [encodeWord, and_F000]; decide)
theorem seImm (x : RegNum) (kk : Byte) : Statement (.seImm x kk) :=
  of_row 0x3000 0xF000 5 rfl (by decide) (by simp [encodeWord, and_F000]; decide)
theorem sneImm (x : RegNum) (kk : Byte) : Statement (.sneImm x kk) :=
  of_row 0x4000 0xF000 6 rfl (by decide) (by simp [encodeWord, and_F000]; decide)
theorem seReg (x : RegNum) (y : RegNum) : Statement (.seReg x y) :=
  of_row 0x5000 0xF00F 7 rfl (by decide) (by simp [encodeWord, and_F00F]; decide)
theorem ldImm (x : RegNum) (kk : Byte) : Statement (.ldImm x kk) :=
  of_row 0x6000 0xF000 8 rfl (by decide) (by simp [encodeWord, and_F000]; decide)
theorem addImm (x : RegNum) (kk : Byte) : Statement (.addImm x kk) :=
  of_row 0x7000 0xF000 9 rfl (by decide) (by simp [encodeWord, and_F000]; decide)
theorem ldReg (x : RegNum) (y : RegNum) : Statement (.ldReg x y) :=
  of_row 0x8000 0xF00F 10 rfl (by decide) (by simp [encodeWord, and_F00F]; decide)
theorem orReg (x : RegNum) (y : RegNum) : Statement (.orReg x y) :=
  of_row 0x8001 0xF00F 11 rfl (by decide) (by simp [encodeWord, and_F00F]; decide)
theorem andReg (x : RegNum) (y : RegNum) : Statement (.andReg x y) :=
  of_row 0x8002 0xF00F 12 rfl (by decide) (by simp [encodeWord, and_F00F]; decide)
theorem xorReg (x : RegNum) (y : RegNum) : Statement (.xorReg x y) :=
  of_row 0x8003 0xF00F 13 rfl (by decide) (by simp [encodeWord, and_F00F]; decide)
theorem addReg (x : RegNum) (y : RegNum) : Statement (.addReg x y) :=
  of_row 0x8004 0xF00F 14 rfl (by decide) (by simp [encodeWord, and_F00F]; decide)
theorem sub (x : RegNum) (y : RegNum) : Statement (.sub x y) :=
  of_row 0x8005 0xF00F 15 rfl (by decide) (by simp [encodeWord, and_F00F]; decide)
theorem shr (x : RegNum) (y : RegNum) : Statement (.shr x y) :=
  of_row 0x8006 0xF00F 16 rfl (by decide) (by simp [encodeWord, and_F00F]; decide)
theorem subn (x : RegNum) (y : RegNum) : Statement (.subn x y) :=
  of_row 0x8007 0xF00F 17 rfl (by decide) (by simp [encodeWord, and_F00F]; decide)
theorem shl (x : RegNum) (y : RegNum) : Statement (.shl x y) :=
  of_row 0x800E 0xF00F 18 rfl (by decide) (by simp [encodeWord, and_F00F]; decide)
theorem sneReg (x : RegNum) (y : RegNum) : Statement (.sneReg x y) :=
  of_row 0x9000 0xF00F 19 rfl (by decide) (by simp [encodeWord, and_F00F]; decide)
theorem ldI (a : Addr12) : Statement (.ldI a) :=
  of_row 0xA000 0xF000 20 rfl (by decide) (by simp [encodeWord, and_F000]; decide)
theorem jpV0 (a : Addr12) : Statement (.jpV0 a) :=
  of_row 0xB000 0xF000 21 rfl (by decide) (by simp [encodeWord, and_F000]; decide)
theorem rnd (x : RegNum) (kk : Byte) : Statement (.rnd x kk) :=
  of_row 0xC000 0xF000 22 rfl (by decide) (by simp [encodeWord, and_F000]; decide)
theorem drw (x : RegNum) (y : RegNum) (n : Nibble) : Statement (.drw x y n) :=
  of_row 0xD000 0xF000 23 rfl (by decide) (by simp [encodeWord, and_F000]; decide)
theorem skp (x : RegNum) : Statement (.skp x) :=
  of_row 0xE09E 0xF0FF 24 rfl (by decide) (by simp [encodeWord, and_F0FF]; decide)
theorem sknp (x : RegNum) : Statement (.sknp x) :=
  of_row 0xE0A1 0xF0FF 25 rfl (by decide) (by simp [encodeWord, and_F0FF]; decide)
theorem ldVxDt (x : RegNum) : Statement (.ldVxDt x) :=
  of_row 0xF007 0xF0FF 26 rfl (by decide) (by simp [encodeWord, and_F0FF]; decide)
theorem ldVxK (x : RegNum) : Statement (.ldVxK x) :=
  of_row 0xF00A 0xF0FF 27 rfl (by decide) (by simp [encodeWord, and_F0FF]; decide)
theorem ldDtVx (x : RegNum) : Statement (.ldDtVx x) :=
  of_row 0xF015 0xF0FF 28 rfl (by decide) (by simp [encodeWord, and_F0FF]; decide)
theorem ldStVx (x : RegNum) : Statement (.ldStVx x) :=
  of_row 0xF018 0xF0FF 29 rfl (by decide) (by simp [encodeWord, and_F0FF]; decide)
theorem addI (x : RegNum) : Statement (.addI x) :=
  of_row 0xF01E 0xF0FF 30 rfl (by decide) (by simp [encodeWord, and_F0FF]; decide)
theorem ldF (x : RegNum) : Statement (.ldF x) :=
  of_row 0xF029 0xF0FF 31 rfl (by decide) (by simp [encodeWord, and_F0FF]; decide)
theorem ldB (x : RegNum) : Statement (.ldB x) :=
  of_row 0xF033 0xF0FF 32 rfl (by decide) (by simp [encodeWord, and_F0FF]; decide)
theorem storeRegs (x : RegNum) : Statement (.storeRegs x) :=
  of_row 0xF055 0xF0FF 33 rfl (by decide) (by simp [encodeWord, and_F0FF]; decide)
theorem loadRegs (x : RegNum) : Statement (.loadRegs x) :=
  of_row 0xF065 0xF0FF 34 rfl (by decide) (by simp [encodeWord, and_F0FF]; decide)
theorem unknown (w : Word) : Statement (.unknown w) := by
  intro _ row hr hn
  simp only [rowNumber] at hn
  exact absurd hn (by revert row; decide)

end Laws.EncodesToItsRow
end Sys2Proof
end

