-- ==== Sys2Proof/Laws/Step.lean ====
section
/-! SUPPORT. What an instruction and a cycle can do, said once: the inversion of `exec`, of the fetch and of `step`. -/

namespace Sys2Proof.Machine

/-! ### One instruction -/

/-- Every shape the state after an instruction can have. -/
inductive Effect (s : State) : Instr → State → Prop where
  /-- Nothing. -/
  | none (w : Word) : Effect s (.unknown w) s
  /-- Registers only. -/
  | regs {i : Instr} (V' : Vector Byte 16)
      (hi : (∃ x kk, i = .ldImm x kk ∨ i = .addImm x kk ∨ i = .rnd x kk) ∨
        (∃ x y, i = .ldReg x y ∨ i = .orReg x y ∨ i = .andReg x y ∨ i = .xorReg x y ∨ i = .addReg x y ∨ i = .sub x y ∨
          i = .shr x y ∨ i = .subn x y ∨ i = .shl x y) ∨
        (∃ x, i = .ldVxDt x ∨ i = .ldVxK x ∨ i = .loadRegs x)) :
      Effect s i { s with V := V' }
  /-- `pc` only: a jump, a skip, or the wait for a key. -/
  | pc {i : Instr} (p : Word)
      (hi : (∃ a, i = .jp a ∨ i = .jpV0 a) ∨ (∃ x kk, i = .seImm x kk ∨ i = .sneImm x kk) ∨
        (∃ x y, i = .seReg x y ∨ i = .sneReg x y) ∨ (∃ x, i = .skp x ∨ i = .sknp x ∨ i = .ldVxK x)) :
      Effect s i { s with pc := p }
  /-- A call. -/
  | call (nnn : Addr12) (h : s.sp.toNat < s.cfg.stackDepth) :
      Effect s (.call nnn) { s.push s.pc with pc := zextAddr nnn }
  /-- A return. -/
  | ret (h : s.sp ≠ 0) : Effect s .ret s.popPc
  /-- `I` only. -/
  | index {i : Instr} (v : Word) (hi : (∃ a, i = .ldI a) ∨ (∃ x, i = .addI x ∨ i = .ldF x)) : Effect s i { s with I := v }
  /-- The delay timer. -/
  | dt (x : RegNum) : Effect s (.ldDtVx x) { s with DT := s.reg x }
  /-- The sound timer. -/
  | st (x : RegNum) : Effect s (.ldStVx x) { s with ST := s.reg x }
  /-- Stores to addresses in memory. -/
  | store {i : Instr} (cells : List (Nat × Byte)) (h : ∀ p ∈ cells, p.1 < memSize)
      (hi : ∃ x, i = .ldB x ∨ i = .storeRegs x) : Effect s i (s.storeBytes cells)
  /-- The display cleared. -/
  | clear : Effect s .cls { s with disp := Display.clear }
  /-- A sprite drawn. -/
  | draw (x y : RegNum) (n : Nibble) (rows : List Byte) : Effect s (.drw x y n) (s.drawSprite x y rows)

theorem withChecked_next {s : State} {n : Nat} {k : List Nat → Result} {t : State}
    (h : withChecked s (s.indexAddrs n) k = .next t) :
    s.Reaches n ∧ k ((s.indexAddrs n).map (· % 0x1000)) = .next t := by
  rcases withChecked_cases s n k with ⟨hr, he⟩ | ⟨-, he⟩
  · exact ⟨hr, he ▸ h⟩
  · rw [he] at h; cases h

/-- The inversion of `exec`. -/
theorem exec_next_cases {i : Instr} {s t : State} (h : exec i s = .next t) : Effect s i t := by
  cases i <;> simp only [exec] at h
  case cls => cases h; exact .clear
  case ret =>
    by_cases hz : s.sp = 0
    · simp [execRet, raise, State.stackEmpty, hz] at h
    · have he : execRet s = .next s.popPc := by rw [execRet, State.stackEmpty, if_neg (by simpa using hz)]
      cases he.symm.trans h
      exact .ret hz
  case jp a => cases h; exact .pc _ (.inl ⟨a, .inl rfl⟩)
  case call a =>
    simp only [execCall, raise, State.stackFull, decide_eq_true_eq] at h
    split at h <;> cases h
    exact .call a (by omega)
  case seImm x kk => cases h; exact .pc _ (.inr (.inl ⟨x, kk, .inl rfl⟩))
  case sneImm x kk => cases h; exact .pc _ (.inr (.inl ⟨x, kk, .inr rfl⟩))
  case seReg x y => cases h; exact .pc _ (.inr (.inr (.inl ⟨x, y, .inl rfl⟩)))
  case sneReg x y => cases h; exact .pc _ (.inr (.inr (.inl ⟨x, y, .inr rfl⟩)))
  case ldImm x kk => cases h; exact .regs _ (.inl ⟨x, kk, by simp⟩)
  case addImm x kk => cases h; exact .regs _ (.inl ⟨x, kk, by simp⟩)
  case rnd x kk => cases h; exact .regs _ (.inl ⟨x, kk, by simp⟩)
  case ldReg x y => cases h; exact .regs _ (.inr (.inl ⟨x, y, by simp⟩))
  case orReg x y => cases h; exact .regs _ (.inr (.inl ⟨x, y, by simp⟩))
  case andReg x y => cases h; exact .regs _ (.inr (.inl ⟨x, y, by simp⟩))
  case xorReg x y => cases h; exact .regs _ (.inr (.inl ⟨x, y, by simp⟩))
  case addReg x y => cases h; exact .regs _ (.inr (.inl ⟨x, y, by simp⟩))
  case sub x y => cases h; exact .regs _ (.inr (.inl ⟨x, y, by simp⟩))
  case shr x y => cases h; exact .regs _ (.inr (.inl ⟨x, y, by simp⟩))
  case subn x y => cases h; exact .regs _ (.inr (.inl ⟨x, y, by simp⟩))
  case shl x y => cases h; exact .regs _ (.inr (.inl ⟨x, y, by simp⟩))
  case ldI a => cases h; exact .index _ (.inl ⟨a, rfl⟩)
  case jpV0 a => cases h; exact .pc _ (.inl ⟨a, .inr rfl⟩)
  case drw x y n => cases (withChecked_next h).2; exact .draw x y n _
  case skp x => cases h; exact .pc _ (.inr (.inr (.inr ⟨x, by simp⟩)))
  case sknp x => cases h; exact .pc _ (.inr (.inr (.inr ⟨x, by simp⟩)))
  case ldVxDt x => cases h; exact .regs _ (.inr (.inr ⟨x, by simp⟩))
  case ldVxK x =>
    simp only [execLdVxK] at h
    split at h <;> cases h
    · exact .regs _ (.inr (.inr ⟨x, by simp⟩))
    · exact .pc _ (.inr (.inr (.inr ⟨x, by simp⟩)))
  case ldDtVx x => cases h; exact .dt x
  case ldStVx x => cases h; exact .st x
  case addI x => cases h; exact .index _ (.inr ⟨x, by simp⟩)
  case ldF x => cases h; exact .index _ (.inr ⟨x, by simp⟩)
  case ldB x =>
    cases (withChecked_next h).2
    refine .store _ (fun p hp => ?_) ⟨x, by simp⟩
    exact checked_lt s 3 p.1 (List.of_mem_zip hp).1
  case storeRegs x =>
    cases (withChecked_next h).2
    refine .store _ (fun p hp => ?_) ⟨x, by simp⟩
    exact checked_lt s _ p.1 (List.of_mem_zip hp).1
  case loadRegs x => cases (withChecked_next h).2; exact .regs _ (.inr (.inr ⟨x, by simp⟩))
  case unknown w => cases h; exact .none w

/-- No instruction touches the parameters, the keys, `ir` or the inputs. -/
theorem exec_next_kept {i : Instr} {s t : State} (h : exec i s = .next t) :
    t.cfg = s.cfg ∧ t.key = s.key ∧ t.ir = s.ir ∧ t.inputs = s.inputs ∧ t.draws = s.draws := by
  cases exec_next_cases h <;> simp

/-! ### The fetch -/

theorem getLsbD_zero_iff (p : Word) : p.getLsbD 0 = true ↔ p.toNat % 2 = 1 := by
  simp [BitVec.getLsbD, Nat.testBit_zero]

theorem fetch_of_fetchable {s : State} (h : s.Fetchable) : s.fetch = .ok s.wordAtPc := by
  obtain ⟨h1, h2⟩ := h
  rw [← getLsbD_zero_iff] at h1
  have h3 : ¬ (s.cfg.pcAlignCheck && s.pc.getLsbD 0) = true := by rwa [Bool.and_eq_true]
  rw [State.fetch, if_neg h3, if_neg h2]
  rfl

theorem fetch_ok {s : State} {w : Word} (h : s.fetch = .ok w) : s.Fetchable ∧ w = s.wordAtPc := by
  simp only [State.fetch] at h
  split at h
  · cases h
  · split at h
    · cases h
    · rename_i h1 h2
      refine ⟨⟨?_, h2⟩, (Except.ok.inj h).symm⟩
      rw [← getLsbD_zero_iff]
      simpa using h1

/-! ### One cycle -/

/-- The inversion of `step`: a cycle that completes fetched a word, and completed what that word's instruction left. -/
theorem step_next_cases {s t : State} (h : step s = .next t) :
    s.Fetchable ∧ ∃ u, exec (decodeWord s.wordAtPc) s.advance = .next u ∧ t = u.complete s.wordAtPc := by
  simp only [step] at h
  split at h
  · cases h
  · rename_i w hw
    obtain ⟨hf, rfl⟩ := fetch_ok hw
    split at h <;> cases h
    exact ⟨hf, _, ‹_›, rfl⟩

theorem step_of_exec_next {s u : State} (hf : s.Fetchable)
    (h : exec (decodeWord s.wordAtPc) s.advance = .next u) : step s = .next (u.complete s.wordAtPc) := by
  simp [step, fetch_of_fetchable hf, h]

theorem step_of_exec_fault {s : State} {f : Fault} (hf : s.Fetchable)
    (h : exec (decodeWord s.wordAtPc) s.advance = .fault f) : step s = .fault f := by
  simp [step, fetch_of_fetchable hf, h]

end Sys2Proof.Machine
end

