-- ==== Sys2Proof/Laws/Stores.lean ====
section
/-! SUPPORT. What an instruction, and a cycle, does to each byte of memory: the bytes of `StoresAt` are stored and every
other reads as before (spec/43_index_memory.md rules R109, R110, spec/20_memory.md rule R44). -/

namespace Sys2Proof.Machine

/-! ### The lists of stored bytes -/

@[simp] theorem length_bcdDigits (v : Byte) : (bcdDigits v).length = 3 := rfl

theorem toNat_getElem_bcdDigits (v : Byte) (k : Nat) (hk : k < 3) :
    ((bcdDigits v)[k]'hk).toNat = v.toNat / 10 ^ (2 - k) % 10 := by
  have hv := v.isLt
  match k, hk with
  | 0, _ => simp [bcdDigits]; omega
  | 1, _ => simp [bcdDigits]; omega
  | 2, _ => simp [bcdDigits]; omega

@[simp] theorem State.length_regsUpTo (s : State) (x : RegNum) : (s.regsUpTo x).length = x.val + 1 := by
  have := x.isLt
  simp [State.regsUpTo]

theorem State.getElem_regsUpTo (s : State) {x r : RegNum} (h : r.val < (s.regsUpTo x).length) :
    (s.regsUpTo x)[r.val] = s.reg r := by
  simp [State.regsUpTo, State.reg]

/-! ### A checked store -/

/-- The `n` bytes of a checked store stand at their addresses modulo 0x1000, outside the font. -/
theorem readByte_checked_store (s : State) {n k : Nat} {bytes : List Byte} (hb : bytes.length = n) (hn : n ≤ 16)
    (hk : k < n) (hf : ¬ InFont ((s.I.toNat + k) % 0x1000)) :
    (s.storeBytes (((s.indexAddrs n).map (· % 0x1000)).zip bytes)).readByte ((s.I.toNat + k) % 0x1000)
      = bytes[k]'(hb ▸ hk) := by
  refine State.readByte_storeBytes_mem _ _ ?_ ?_ hf
  · have hd := checked_nodup s hn
    rw [List.pairwise_iff_getElem] at hd ⊢
    intro i j hi hj hij
    simp only [List.getElem_zip]
    simp only [List.length_zip] at hi hj
    exact hd i j (by omega) (by omega) hij
  · rw [List.mem_iff_getElem]
    exact ⟨k, by simp; omega, by simp⟩

/-- A byte at none of its addresses, or in the font, is left alone by a checked store. -/
theorem readByte_checked_store_other (s : State) {n : Nat} {bytes : List Byte} {a : Nat}
    (h : InFont a ∨ ∀ k < n, (s.I.toNat + k) % 0x1000 ≠ a) :
    (s.storeBytes (((s.indexAddrs n).map (· % 0x1000)).zip bytes)).readByte a = s.readByte a := by
  rcases h with hf | h
  · exact State.readByte_storeBytes_font _ _ hf
  · refine State.readByte_storeBytes_other _ _ fun p hp => ?_
    have hm := (List.of_mem_zip hp).1
    simp only [State.indexAddrs, List.map_map, List.mem_map, List.mem_range, Function.comp] at hm
    obtain ⟨k, hk, he⟩ := hm
    exact he ▸ h k hk

theorem checkAddr_of_reaches {s : State} {n k : Nat} (h : s.Reaches n) (hk : k < n) :
    checkAddr s.cfg.addrMode (s.I.toNat + k) = .ok ((s.I.toNat + k) % 0x1000) := by
  refine checkAddr_of_le ?_
  rcases h with h | h | h
  · exact .inl h
  · exact .inr (by omega)
  · omega

/-! ### An instruction and a cycle -/

/-- A byte the instruction stores is there afterwards. -/
theorem exec_readByte_of_storesAt {i : Instr} {s t : State} {a : Nat} {b : Byte} (h : exec i s = .next t)
    (hs : StoresAt i s a b) : t.readByte a = b := by
  obtain ⟨hf, hs⟩ := hs
  cases i <;> try exact hs.elim
  case ldB x =>
    obtain ⟨k, hk, ha, hb⟩ := hs
    obtain ⟨rfl, -⟩ := checkAddr_ok ha
    cases (withChecked_next h).2
    rw [readByte_checked_store s (length_bcdDigits _) (by decide) hk hf]
    exact BitVec.eq_of_toNat_eq ((toNat_getElem_bcdDigits _ k hk).trans hb.symm)
  case storeRegs x =>
    obtain ⟨r, hr, ha, rfl⟩ := hs
    obtain ⟨rfl, -⟩ := checkAddr_ok ha
    cases (withChecked_next h).2
    have hx := x.isLt
    have hr' := Fin.le_def.mp hr
    rw [readByte_checked_store s (s.length_regsUpTo x) (by omega) (by omega) hf]
    exact s.getElem_regsUpTo _

/-- A byte the instruction does not store reads as before. -/
theorem exec_readByte_of_not_storesAt {i : Instr} {s t : State} {a : Nat} (h : exec i s = .next t)
    (hs : ∀ b, ¬ StoresAt i s a b) : t.readByte a = s.readByte a := by
  have hi : (∃ x, i = .ldB x ∨ i = .storeRegs x) ∨ t.readByte a = s.readByte a := by
    cases exec_next_cases h
    case store hc hi => exact .inl hi
    all_goals exact .inr rfl
  rcases hi with ⟨x, rfl | rfl⟩ | hi
  · obtain ⟨hr, ht⟩ := withChecked_next h
    cases ht
    refine readByte_checked_store_other s ?_
    by_cases hf : InFont a
    · exact .inl hf
    · refine .inr fun k hk he => hs ((bcdDigits (s.reg x))[k]'hk) ⟨hf, k, hk, ?_, toNat_getElem_bcdDigits _ k hk⟩
      rw [checkAddr_of_reaches hr hk, he]
  · obtain ⟨hr, ht⟩ := withChecked_next h
    cases ht
    refine readByte_checked_store_other s ?_
    by_cases hf : InFont a
    · exact .inl hf
    · have hx := x.isLt
      refine .inr fun k hk he => hs _ ⟨hf, ⟨k, by omega⟩, Fin.le_def.mpr (show k ≤ x.val by omega), ?_, rfl⟩
      show checkAddr _ (s.I.toNat + k) = _
      rw [checkAddr_of_reaches hr hk, he]
  · exact hi

/-- The end of a cycle touches no byte. -/
@[simp] theorem readByte_complete (s : State) (w : Word) (a : Nat) : (s.complete w).readByte a = s.readByte a := by
  unfold State.complete State.nextInput
  split <;> rfl

theorem step_readByte_of_storesAt {s t : State} {a : Nat} {b : Byte} (h : step s = .next t)
    (hs : CycleStoresAt s a b) : t.readByte a = b := by
  obtain ⟨-, u, hu, rfl⟩ := step_next_cases h
  rw [readByte_complete]
  exact exec_readByte_of_storesAt hu hs

theorem step_readByte_of_not_storesAt {s t : State} {a : Nat} (h : step s = .next t)
    (hs : ∀ b, ¬ CycleStoresAt s a b) : t.readByte a = s.readByte a := by
  obtain ⟨-, u, hu, rfl⟩ := step_next_cases h
  rw [readByte_complete]
  exact (exec_readByte_of_not_storesAt hu hs).trans (rfl : s.advance.readByte a = s.readByte a)

end Sys2Proof.Machine
end

