-- ==== Sys2Proof/Tests/Slice0.lean ====
section
/-! SUPPORT. The model's own tests: the check of well-formedness, a word of every shape, one or two vectors of
spec/95_test_vectors.md for each instruction (its id stands in the comment), and for each obligation with hypotheses a
witness that meets them. -/

namespace Sys2Proof.Tests

open Sys2Proof Sys2Proof.Machine

/-! ### Well-formedness: the one check, and an ill-formed term it refuses -/

theorem test_wf_refuses_unknown_of_a_defined_word : (Instr.unknown 0x00E0).wf = false := by decide
theorem test_wf_refuses_unknown_of_a_sprite_word : (Instr.unknown 0xD125).wf = false := by decide
/-- A defined word of each group of R57. -/
theorem test_wf_refuses_unknown_of_each_group :
    ([0x00EE, 0x5120, 0x812E, 0x9120, 0xE19E, 0xE1A1, 0xF107, 0xF165, 0x1000] : List Word).all
      (fun w => (Instr.unknown w).wf == false) = true := by decide
theorem test_wf_admits_unknown_of_zero : (Instr.unknown 0x0000).wf = true := by decide
theorem test_wf_admits_a_shift_with_any_y : (Instr.shr 3 5).wf = true := by decide

/-! ### Decoding: a word of every constructor, written out from the shapes of R55 -/

theorem test_decode_fixed : decodeWord 0x00E0 = .cls ∧ decodeWord 0x00EE = .ret := by decide
theorem test_decode_nnn : decodeWord 0x1234 = .jp 0x234 ∧ decodeWord 0x2ABC = .call 0xABC ∧
    decodeWord 0xA123 = .ldI 0x123 ∧ decodeWord 0xBFFF = .jpV0 0xFFF := by decide
theorem test_decode_xkk : decodeWord 0x3342 = .seImm 3 0x42 ∧ decodeWord 0x4F01 = .sneImm 15 0x01 ∧
    decodeWord 0x6A2F = .ldImm 10 0x2F ∧ decodeWord 0x7003 = .addImm 0 0x03 ∧
    decodeWord 0xC50F = .rnd 5 0x0F := by decide
theorem test_decode_xy : decodeWord 0x5120 = .seReg 1 2 ∧ decodeWord 0x9AB0 = .sneReg 10 11 ∧
    decodeWord 0x8120 = .ldReg 1 2 ∧ decodeWord 0x8121 = .orReg 1 2 ∧ decodeWord 0x8122 = .andReg 1 2 ∧
    decodeWord 0x8123 = .xorReg 1 2 := by decide
theorem test_decode_xy_flag : decodeWord 0x8014 = .addReg 0 1 ∧ decodeWord 0x8F15 = .sub 15 1 ∧
    decodeWord 0x8356 = .shr 3 5 ∧ decodeWord 0x80F7 = .subn 0 15 ∧ decodeWord 0x830E = .shl 3 0 := by decide
theorem test_decode_draw : decodeWord 0xD12F = .drw 1 2 15 := by decide
theorem test_decode_keys : decodeWord 0xE19E = .skp 1 ∧ decodeWord 0xEFA1 = .sknp 15 ∧
    decodeWord 0xF50A = .ldVxK 5 := by decide
theorem test_decode_timers : decodeWord 0xF307 = .ldVxDt 3 ∧ decodeWord 0xF215 = .ldDtVx 2 ∧
    decodeWord 0xF218 = .ldStVx 2 := by decide
theorem test_decode_index : decodeWord 0xF21E = .addI 2 ∧ decodeWord 0xF429 = .ldF 4 ∧ decodeWord 0xF733 = .ldB 7 ∧
    decodeWord 0xF255 = .storeRegs 2 ∧ decodeWord 0xFF65 = .loadRegs 15 := by decide
/-- CYC2, CYC3, CYC4. -/
theorem test_decode_unknown :
    ([0x0000, 0x0123, 0x5121, 0x8008, 0x800F, 0x9001, 0xE000, 0xF000, 0xFFFF] : List Word).all
      (fun w => decodeWord w == .unknown w) = true := by decide
theorem test_decode_bytes : decode [0xD1, 0x2F, 0x00] = .ok (.drw 1 2 15, [0x00]) := by decide
theorem test_decode_too_short : decode [0xD1] = .error .truncated := by decide
theorem test_encode_draw : encode (.drw 1 2 15) = [0xD1, 0x2F] := by decide
theorem test_decode_table_word : decodeTableWord 16 0xF733 = some (.ldB 7) := by decide

/-! ### One step on a small state -/

/-- The reset state with some registers set, the word `w` at `pc`, and the inputs of one cycle. -/
def start (w : Nat) (vs : List (RegNum × Byte)) (rnd : Byte := 0) (tick : Bool := false) : State :=
  { (vs.foldl (fun s p => s.setReg p.1 p.2) State.reset).withFetchWord 16 w with inputs := [⟨rnd, tick⟩] }

/-- The outcome is a next state that passes `p`. -/
def holds (o : Result) (p : State → Bool) : Bool :=
  match o with
  | .next t => p t
  | _ => false

/-- The outcome is the fault `f`. -/
def fails (o : Result) (f : Fault) : Bool :=
  match o with
  | .fault e => e == f
  | _ => false

/-- Wrap mode, for the vectors that ask for it. -/
def wrapConfig : Config := { defaultConfig with addrMode := .wrap, spriteEdge := .wrap }

/-- The display with the listed (column, row) pixels set. -/
def pixels (ps : List (Fin 64 × Fin 32)) : Display := ps.foldl (fun d p => d.toggle p.2 p.1) Display.clear

/-- CYC1. -/
theorem test_step_zero_word : holds (step (start 0x0000 [])) (fun t => t.pc == 0x202 && t.ir == 0x0000) = true := by decide
/-- CYC11. -/
theorem test_tick_counts_down :
    holds (step { start 0x0000 [] 0 true with DT := 5, ST := 1 }) (fun t => t.DT == 4 && t.ST == 0) = true := by decide
/-- CYC12. -/
theorem test_tick_stops_at_zero : holds (step (start 0x0000 [] 0 true)) (fun t => t.DT == 0 && t.ST == 0) = true := by decide
/-- CYC5. -/
theorem test_fetch_misaligned :
    fails (step { start 0x0000 [] with pc := 0x201 }) (.pcMisaligned 0x201) = true := by decide
/-- CYC6. -/
theorem test_fetch_out_of_range :
    fails (step { start 0x0000 [] with pc := 0x1000 }) (.pcOutOfRange 0x1000) = true := by decide
/-- CYC9. -/
theorem test_fetch_wraps : holds (step { start 0x0000 [] with pc := 0x1000, cfg := wrapConfig })
    (fun t => t.pc == 0x1002) = true := by decide
/-- CF1, CF3. -/
theorem test_jp : holds (step (start 0x1234 [])) (fun t => t.pc == 0x234) = true ∧
    holds (step (start 0x1201 [])) (fun t => fails (step t) (.pcMisaligned 0x201)) = true := by decide
/-- CF4. -/
theorem test_call : holds (step (start 0x2ABC []))
    (fun t => t.pc == 0xABC && t.sp == 1 && t.stackEntry 0 == 0x202) = true := by decide
/-- CF6, CF7. -/
theorem test_call_overflow : fails (step { start 0x2300 [] with sp := 16 }) (.stackOverflow 0x200) = true ∧
    fails (step { start 0x2300 [] with sp := 12, cfg := { defaultConfig with depthAbove12 := 0 } })
      (.stackOverflow 0x200) = true := by decide
/-- CF8. -/
theorem test_ret_underflow : fails (step (start 0x00EE [])) (.stackUnderflow 0x200) = true := by decide
/-- CF9. -/
theorem test_ret : holds (step { start 0x00EE [] with sp := 2, stack := (State.reset.stack.set 0 0x202).set 1 0x30A })
    (fun t => t.pc == 0x30A && t.sp == 1 && t.stackEntry 1 == 0x30A) = true := by decide
/-- CF10, CF11. -/
theorem test_se_imm : holds (step (start 0x3342 [(3, 0x42)])) (fun t => t.pc == 0x204) = true ∧
    holds (step (start 0x3342 [(3, 0x41)])) (fun t => t.pc == 0x202) = true := by decide
/-- CF12, CF13. -/
theorem test_sne_imm : holds (step (start 0x4342 [(3, 0x42)])) (fun t => t.pc == 0x202) = true ∧
    holds (step (start 0x4342 [(3, 0x41)])) (fun t => t.pc == 0x204) = true := by decide
/-- CF14. -/
theorem test_se_reg : holds (step (start 0x5120 [(1, 0x99), (2, 0x99)])) (fun t => t.pc == 0x204) = true := by decide
/-- CF16, CF17. -/
theorem test_sne_reg : holds (step (start 0x9120 [(1, 7), (2, 8)])) (fun t => t.pc == 0x204) = true ∧
    holds (step (start 0x9110 [(1, 7)])) (fun t => t.pc == 0x202) = true := by decide
/-- CF18, CF19. -/
theorem test_jp_v0 : holds (step (start 0xB300 [(0, 0x10)])) (fun t => t.pc == 0x310) = true ∧
    holds (step (start 0xBFFF [(0, 0xFF)])) (fun t => t.pc == 0x10FE) = true := by decide
/-- ALU1. -/
theorem test_ld_imm : holds (step (start 0x6A2F [])) (fun t => t.reg 10 == 0x2F) = true := by decide
/-- ALU2. -/
theorem test_add_imm_wraps : holds (step (start 0x7001 [(0, 0xFF), (15, 0x55)]))
    (fun t => t.reg 0 == 0x00 && t.reg 15 == 0x55) = true := by decide
/-- ALU4. -/
theorem test_ld_reg : holds (step (start 0x8120 [(2, 0x99)])) (fun t => t.reg 1 == 0x99) = true := by decide
/-- ALU5. -/
theorem test_or : holds (step (start 0x8121 [(1, 0x0F), (2, 0xF0), (15, 0x77)]))
    (fun t => t.reg 1 == 0xFF && t.reg 15 == 0x77) = true := by decide
/-- ALU6. -/
theorem test_and : holds (step (start 0x8122 [(1, 0x3C), (2, 0x0F), (15, 0x77)]))
    (fun t => t.reg 1 == 0x0C && t.reg 15 == 0x77) = true := by decide
/-- ALU7. -/
theorem test_xor : holds (step (start 0x8123 [(1, 0x3C), (2, 0x0F), (15, 0x77)]))
    (fun t => t.reg 1 == 0x33 && t.reg 15 == 0x77) = true := by decide
/-- ALU10, ALU11. -/
theorem test_add_carry : holds (step (start 0x8014 [(0, 0xFF), (1, 0x01)])) (fun t => t.reg 0 == 0 && t.reg 15 == 1) = true ∧
    holds (step (start 0x8014 [(0, 0x7F), (1, 0x80)])) (fun t => t.reg 0 == 0xFF && t.reg 15 == 0) = true := by decide
/-- ALU13, ALU14. -/
theorem test_add_with_vf : holds (step (start 0x8F14 [(15, 0x10), (1, 0xF5)])) (fun t => t.reg 15 == 1) = true ∧
    holds (step (start 0x80F4 [(0, 0x01), (15, 0xFF)])) (fun t => t.reg 0 == 0 && t.reg 15 == 1) = true := by decide
/-- ALU16, ALU18. -/
theorem test_sub : holds (step (start 0x8015 [(0, 0x05), (1, 0x07)])) (fun t => t.reg 0 == 0xFE && t.reg 15 == 0) = true ∧
    holds (step (start 0x8015 [(0, 0x05), (1, 0x05)])) (fun t => t.reg 0 == 0 && t.reg 15 == 1) = true := by decide
/-- ALU20, ALU21. -/
theorem test_sub_with_vf : holds (step (start 0x8F15 [(15, 0x03), (1, 0x01)])) (fun t => t.reg 15 == 1) = true ∧
    holds (step (start 0x80F5 [(15, 0x01)])) (fun t => t.reg 0 == 0xFF && t.reg 15 == 0) = true := by decide
/-- ALU25, ALU26. -/
theorem test_shr : holds (step (start 0x8356 [(3, 0x04), (5, 0xFF)])) (fun t => t.reg 3 == 2 && t.reg 15 == 0) = true ∧
    holds (step (start 0x8F06 [(15, 0x03)])) (fun t => t.reg 15 == 1) = true := by decide
/-- ALU28, ALU29. -/
theorem test_subn : holds (step (start 0x8017 [(0, 0x05), (1, 0x07)])) (fun t => t.reg 0 == 2 && t.reg 15 == 1) = true ∧
    holds (step (start 0x8017 [(0, 0x07), (1, 0x05)])) (fun t => t.reg 0 == 0xFE && t.reg 15 == 0) = true := by decide
/-- ALU31, ALU34. -/
theorem test_shl : holds (step (start 0x830E [(3, 0x81)])) (fun t => t.reg 3 == 2 && t.reg 15 == 1) = true ∧
    holds (step (start 0x8F0E [(15, 0x81)])) (fun t => t.reg 15 == 1) = true := by decide
/-- ALU35. -/
theorem test_rnd : holds (step (start 0xC50F [] 0xA7)) (fun t => t.reg 5 == 0x07) = true := by decide
/-- MEM1. -/
theorem test_ld_i : holds (step (start 0xA123 [])) (fun t => t.I == 0x123) = true := by decide
/-- MEM3, MEM4. -/
theorem test_add_i : holds (step { start 0xF01E [(0, 1)] with I := 0x0FFF }) (fun t => t.I == 0x1000) = true ∧
    holds (step { start 0xF01E [(0, 1)] with I := 0xFFFF }) (fun t => t.I == 0) = true := by decide
/-- MEM7, MEM9. -/
theorem test_ld_f : holds (step (start 0xF429 [(4, 0x0F)])) (fun t => t.I == 0x09B) = true ∧
    holds (step (start 0xF429 [(4, 0xFF)])) (fun t => t.I == 0x54B) = true := by decide
/-- MEM15. -/
theorem test_bcd_wraps : holds (step { start 0xF633 [(6, 0xFF)] with I := 0xFFF, cfg := wrapConfig })
    (fun t => t.readByte 0xFFF == 2 && t.readByte 0 == 5 && t.readByte 1 == 5) = true := by decide
/-- MEM14, MEM16. -/
theorem test_bcd_edges : fails (step { start 0xF633 [(6, 0xFF)] with I := 0xFFE }) (.addressOutOfRange 0x200 0x1000) = true ∧
    holds (step { start 0xF633 [(6, 0x7B)] with I := 0x09E })
      (fun t => t.readByte 0x09E == 0x80 && t.readByte 0x09F == 0x80 && t.readByte 0x0A0 == 3) = true := by decide
/-- MEM17. -/
theorem test_store_regs : holds (step { start 0xF255 [(0, 1), (1, 2), (2, 3)] with I := 0x400 })
    (fun t => t.readByte 0x400 == 1 && t.readByte 0x402 == 3 && t.readByte 0x403 == 0 && t.I == 0x400) = true := by decide
/-- MEM20. -/
theorem test_store_regs_out_of_range :
    fails (step { start 0xF255 [] with I := 0xFFE }) (.addressOutOfRange 0x200 0x1000) = true := by decide
/-- MEM23, the font read as data. -/
theorem test_load_regs : holds (step { start 0xF465 [(5, 0x11)] with I := 0x050 })
    (fun t => t.reg 0 == 0xF0 && t.reg 1 == 0x90 && t.reg 4 == 0xF0 && t.reg 5 == 0x11 && t.I == 0x050) = true := by decide
/-- DSP1. -/
theorem test_cls : holds (step { start 0x00E0 [(15, 0x77)] with disp := pixels [(63, 31)] })
    (fun t => !t.disp.pixel 31 63 && t.reg 15 == 0x77) = true := by decide
/-- DSP5: glyph 0 at origin (68 mod 64, 33 mod 32) = (4, 1). -/
theorem test_draw_origin : holds (step { start 0xD015 [(0, 0x44), (1, 0x21)] with I := 0x050 })
    (fun t => t.disp.pixel 1 7 && !t.disp.pixel 1 8 && t.disp.pixel 2 4 && !t.disp.pixel 2 5 && t.disp.pixel 5 4 &&
      t.reg 15 == 0) = true := by decide
/-- DSP12, DSP13: at the right edge a sprite is clipped, or collides through the wrap. -/
theorem test_draw_edges :
    holds (step { (start 0xD011 [(0, 60)]).writeByte 0x300 0xFF with I := 0x300, disp := pixels [(63, 0)] })
      (fun t => t.disp.pixel 0 62 && !t.disp.pixel 0 63 && !t.disp.pixel 0 0 && t.reg 15 == 1) = true ∧
    holds (step { (start 0xD011 [(0, 60)]).writeByte 0x300 0xFF with I := 0x300, cfg := wrapConfig, disp := pixels [(0, 0)] })
      (fun t => t.disp.pixel 0 63 && t.disp.pixel 0 3 && !t.disp.pixel 0 0 && t.reg 15 == 1) = true := by
  decide
/-- KEY1, KEY3. -/
theorem test_skp : holds (step { start 0xE19E [(1, 5)] with key := State.reset.key.set 5 true }) (fun t => t.pc == 0x204) = true ∧
    holds (step { start 0xE19E [(1, 0x15)] with key := State.reset.key.set 5 true }) (fun t => t.pc == 0x204) = true := by
  decide
/-- KEY4, KEY5. -/
theorem test_sknp : holds (step (start 0xE1A1 [(1, 5)])) (fun t => t.pc == 0x204) = true ∧
    holds (step { start 0xE1A1 [(1, 5)] with key := State.reset.key.set 5 true }) (fun t => t.pc == 0x202) = true := by decide
/-- KEY6 (at 0x200). -/
theorem test_key_wait : holds (step { start 0xF50A [(5, 9)] 0 true with DT := 3 })
    (fun t => t.pc == 0x200 && t.DT == 2 && t.reg 5 == 9) = true := by decide
/-- KEY7 (at 0x200). -/
theorem test_key_lowest : holds (step { start 0xF50A [] with key := (State.reset.key.set 11 true).set 12 true })
    (fun t => t.pc == 0x202 && t.reg 5 == 0x0B) = true := by decide
/-- TMR1. -/
theorem test_read_dt : holds (step { start 0xF307 [] 0 true with DT := 0x10 }) (fun t => t.reg 3 == 0x10 && t.DT == 0x0F) = true := by
  decide
/-- TMR3, TMR4. -/
theorem test_write_dt : holds (step (start 0xF215 [(2, 60)] 0 true)) (fun t => t.DT == 59) = true ∧
    holds (step (start 0xF215 [(2, 60)])) (fun t => t.DT == 60) = true := by decide
/-- TMR7. -/
theorem test_write_st : holds (step (start 0xF218 [(2, 2)] 0 true)) (fun t => t.ST == 1) = true := by decide
/-- HST1. -/
theorem test_load_rom : ((opLoadRom [0x60, 0x05] State.reset).1.readByte 0x201 == 0x05 &&
    (opLoadRom [0x60, 0x05] State.reset).1.pc == 0x200) = true := by decide
/-- HST4. -/
theorem test_write_keys : (opWriteKeys (State.reset.key.set 7 true) State.reset).keyPressed 7 = true ∧
    (opWriteKeys (State.reset.key.set 7 true) State.reset).keyPressed 6 = false := by decide
/-- The codes of R125. -/
theorem test_status_codes : [Status.ok, .error (.stackOverflow 0), .error (.stackUnderflow 0),
      .error (.addressOutOfRange 0 0), .error (.pcMisaligned 0), .error (.pcOutOfRange 0), .romTooLarge].map statusCode
    = [some 0, some 1, some 2, some 3, some 4, some 5, some 6] := by decide
/-- D1: glyph 7 of the default font stands at 0x073, as program P6 says (F0 10 20 40 40). -/
theorem test_font_glyph_seven : [0x073, 0x074, 0x075, 0x076, 0x077].map State.reset.readByte
    = [0xF0, 0x10, 0x20, 0x40, 0x40] := by decide

/-! ### Witnesses: for each obligation with hypotheses, states and operands that meet all of them, at the ends of their
ranges -/

/-- The outcome is a next state. -/
abbrev isNext (o : Result) : Bool := holds o fun _ => true

/-- What `isNext` says. -/
theorem exists_next {o : Result} (h : isNext o = true) : ∃ t, o = .next t := by
  cases o with
  | next t => exact ⟨t, rfl⟩
  | fault f => exact absurd h (by simp [holds])
  | refused r => exact absurd h (by simp [holds])

/-- The reset state fetches the last word of memory at `pc = 0xFFE`. -/
def atEnd : State := { State.reset with pc := 0xFFE }
/-- Memory without the alignment check. -/
def unaligned : State := { State.reset with cfg := { defaultConfig with pcAlignCheck := false } }
/-- A call stack of fifteen entries, with room for one more. -/
def almostFull : State := { State.reset with sp := 15 }
/-- The last legal origin of a full register block, all addresses checked. -/
def topBlock : State := { State.reset with I := 0xFF0 }

theorem witness_reset_inv : State.reset.Inv where
  memory_wf := by decide
  font_unlisted := by decide
  sp_le := by decide
  stack_tail := fun j hj => by
    have h : State.reset.stack[j]? = none := Vector.getElem?_eq_none (show 16 ≤ j from hj)
    simp only [State.stackEntry, h, Option.getD_none]

theorem witness_fetchable : State.reset.Fetchable ∧ atEnd.Fetchable ∧ { unaligned with pc := 0x201 }.Fetchable := by
  unfold State.Fetchable; decide

theorem witness_decode_of_encode : (Instr.drw 15 1 2).wf = true ∧ (Instr.unknown 0xFFFF).wf = true := by decide
theorem witness_matching_row : (0x00E0 : Word) &&& 0xFFFF = 0x00E0 ∧ (1, 0x00E0, 0xFFFF) ∈ opcodeRows := by decide
theorem witness_no_matching_row : opcodeRows.all (fun row => (0x0000 : Word) &&& row.2.2 != row.2.1) = true := by decide

theorem witness_step_runs : decode [State.reset.readByte (State.reset.pc.toNat % 0x1000),
      State.reset.readByte ((State.reset.pc.toNat + 1) % 0x1000)] = .ok (.unknown 0, []) ∧
    exec (.unknown 0) { State.reset with pc := State.reset.pc + 2 } = .next { State.reset with pc := State.reset.pc + 2 } :=
  ⟨by decide, rfl⟩
theorem witness_step_faults : fails (exec .ret (start 0x00EE []).advance) (.stackUnderflow 0x200) = true ∧
    decodeWord (start 0x00EE []).wordAtPc = .ret := by decide
theorem witness_timers : (start 0x0000 [] 0 true).input.tick = true ∧ (start 0x0000 []).input.tick = false ∧
    exec (decodeWord (start 0x0000 []).wordAtPc) (start 0x0000 []).advance = .next (start 0x0000 []).advance :=
  ⟨by decide, by decide, rfl⟩

theorem witness_fetch_checks : (State.reset.cfg.pcAlignCheck = true ∧ (0xFFFF : Word).toNat % 2 = 1) ∧
    (unaligned.cfg.addrMode = .fault ∧ 0xFFE < (0xFFF : Word).toNat ∧ unaligned.cfg.pcAlignCheck = false) := by decide
theorem witness_fetch_word : ∃ w, State.reset.fetch = .ok w := ⟨0, by decide⟩
theorem witness_unknown_word : opcodeRows.all (fun row => State.reset.wordAtPc &&& row.2.2 != row.2.1) = true := by decide

theorem witness_faults : fails (exec (.call 0x300) { State.reset with sp := 16 }) (.stackOverflow 0x1FE) = true ∧
    fails (exec .ret State.reset) (.stackUnderflow 0x1FE) = true ∧
    fails (exec (.ldB 0) { State.reset with I := 0xFFE }) (.addressOutOfRange 0x1FE 0x1000) = true := by decide
theorem witness_lowest_address : State.reset.cfg.addrMode = .fault ∧ 2 < dataBytes (.ldB 0) ∧
    0xFFF < (0xFFE : Word).toNat + 2 ∧ ∀ j < 2, (0xFFE : Word).toNat + j ≤ 0xFFF := by decide
theorem witness_lowest_address_at_once : 0 < dataBytes (.drw 0 0 1) ∧ 0xFFF < (0x1000 : Word).toNat + 0 := by decide
theorem witness_error_cycle : ((opCycle ⟨0, true⟩ (start 0x00EE [])).2 == .error (.stackUnderflow 0x200)) = true := by decide

theorem witness_step_next : ∃ t, step State.reset = .next t := exists_next (by decide)
theorem witness_canonical_memories : Memory.wf defaultFont [(0x300, 1)] ∧ Memory.wf defaultFont [(0x000, 1), (0xFFF, 2)] := by
  decide

theorem witness_writers : holds (exec (.ldI 1) State.reset) (fun t => t.I != State.reset.I) = true ∧
    holds (exec (.call 0) State.reset) (fun t => t.sp != State.reset.sp && t.stack != State.reset.stack) = true ∧
    holds (exec (.ldDtVx 0) (State.reset.setReg 0 1)) (fun t => t.DT != State.reset.DT) = true ∧
    holds (exec (.ldStVx 0) (State.reset.setReg 0 1)) (fun t => t.ST != State.reset.ST) = true ∧
    holds (exec (.jp 0) State.reset) (fun t => t.pc != State.reset.pc) = true := by decide
theorem witness_display_writer : holds (exec .cls { State.reset with disp := pixels [(0, 0)] })
    (fun t => !t.disp.pixel 0 0 && (pixels [(0, 0)]).pixel 0 0) = true := by decide
theorem witness_memory_writer : holds (exec (.storeRegs 0) (State.reset.setReg 0 1))
    (fun t => t.readByte 0 != State.reset.readByte 0) = true := by decide
theorem witness_register_writer : holds (exec (.addReg 15 0) (State.reset.setReg 15 7))
    (fun t => t.reg 15 == 0 && (State.reset.setReg 15 7).reg 15 != 0) = true ∧ WritesFlag (.addReg 15 0) :=
  ⟨by decide, trivial⟩
theorem witness_reads_no_input : ∀ x kk, Instr.cls ≠ .rnd x kk := by simp
theorem witness_stale_stack : almostFull.sp.toNat ≤ almostFull.cfg.stackDepth ∧
    ∀ j < almostFull.sp.toNat, { almostFull with stack := almostFull.stack.set 15 0xABC }.stackEntry j = almostFull.stackEntry j := by
  decide

theorem witness_jump : exec (.jp 0x201) State.reset = .next { State.reset with pc := 0x201 } ∧
    exec (.jp 0xFFF) unaligned = .next { unaligned with pc := 0xFFF } ∧ unaligned.cfg.addrMode = .fault ∧
    State.reset.cfg.pcAlignCheck = true := ⟨rfl, rfl, rfl, rfl⟩
theorem witness_call : almostFull.sp.toNat < almostFull.cfg.stackDepth ∧
    { State.reset with sp := 16 }.sp.toNat = State.reset.cfg.stackDepth := by decide
theorem witness_return : State.reset.sp = 0 ∧ ({ State.reset with sp := 1 } : State).sp ≠ 0 ∧
    ({ State.reset with sp := 16 } : State).sp ≠ 0 ∧ decodeWord (start 0x00EE []).wordAtPc = .ret := by decide
theorem witness_return_within_depth : ({ State.reset with sp := 1 } : State).sp.toNat ≤ State.reset.cfg.stackDepth ∧
    ({ State.reset with sp := 16 } : State).sp.toNat ≤ State.reset.cfg.stackDepth := by decide
theorem witness_return_to_odd : holds (exec .ret { State.reset with sp := 1, stack := State.reset.stack.set 0 0x201 })
    (fun t => t.pc.toNat % 2 == 1 && t.cfg.pcAlignCheck) = true := by decide
/-- Past 0xFFE, at an even address and, with the check off, at an odd one. -/
theorem witness_return_past_memory :
    holds (exec .ret { State.reset with sp := 1, stack := State.reset.stack.set 0 0x1000 })
      (fun t => t.pc.toNat % 2 == 0 && 0xFFE < t.pc.toNat) = true ∧
    holds (exec .ret { unaligned with sp := 1, stack := State.reset.stack.set 0 0xFFF })
      (fun t => !t.cfg.pcAlignCheck && t.cfg.addrMode == .fault && 0xFFE < t.pc.toNat) = true := by decide
theorem witness_return_after_call : ∃ t, exec (.call 0x300) almostFull = .next t := exists_next (by decide)
theorem witness_unknown_skip_words : ((0x5121 : Word) &&& 0xF000 = 0x5000 ∧ (0x5121 : Word) &&& 0x000F ≠ 0) ∧
    ((0x912F : Word) &&& 0xF000 = 0x9000 ∧ (0x912F : Word) &&& 0x000F ≠ 0) := by decide
/-- A word of each shape the `DecodesAs` clauses speak of. -/
theorem witness_decodes_as : (0x1234 : Word) &&& 0xF000 = 0x1000 ∧ (0x8123 : Word) &&& 0xF00F = 0x8003 ∧
    (0xF71E : Word) &&& 0xF0FF = 0xF01E ∧ (0x00E0 : Word) &&& 0xFFFF = 0x00E0 := by decide

theorem witness_glyph : exec (.ldF 0) (State.reset.setReg 0 15) = .next { State.reset.setReg 0 15 with I := 0x09B } ∧
    ((State.reset.setReg 0 15).reg 0).toNat = 15 ∧ (State.reset.reg 0).toNat = 0 := ⟨rfl, by decide, by decide⟩
theorem witness_reaches_top : topBlock.Reaches 16 ∧ ({ State.reset with I := 0xFFD } : State).Reaches 3 ∧
    ({ State.reset with I := 0xFFFF, cfg := wrapConfig } : State).Reaches 16 ∧
    ({ State.reset with I := 0xFFFF } : State).Reaches 0 := by
  unfold State.Reaches; decide
theorem witness_checked_addresses : checkAddr .fault (0xFF0 + 15) = .ok 0xFFF ∧ checkAddr .wrap (0xFFFF + 15) = .ok 0x00E ∧
    ¬ InFont 0xFFF ∧ InFont 0x050 ∧ InFont 0x09F ∧ ¬ InFont 0x04F ∧ ¬ InFont 0x0A0 := ⟨rfl, rfl, by decide⟩
theorem witness_store_then_load : (∃ t, exec (.storeRegs 15) topBlock = .next t) ∧
    ∀ r : RegNum, ¬ InFont (topBlock.I.toNat + r.val) ∧
      checkAddr topBlock.cfg.addrMode (topBlock.I.toNat + r.val) = .ok (topBlock.I.toNat + r.val) := by
  refine ⟨exists_next (by decide), fun r => ?_⟩
  have h : topBlock.I.toNat + r.val ≤ 0xFFF := by
    have := r.isLt
    show 0xFF0 + r.val ≤ 0xFFF
    omega
  refine ⟨fun hf => ?_, by unfold checkAddr; rw [if_pos h]⟩
  have : 0xFF0 + r.val ≤ 0x09F := hf.2
  omega
/-- A cycle that stores the last register of a block at the last byte of memory, one that stores a digit through the wrap,
and one that stores nothing there. -/
theorem witness_cycle_stores : CycleStoresAt { start 0xFF55 [(15, 7)] with I := 0xFF0 } 0xFFF 7 ∧
    CycleStoresAt { start 0xF633 [(6, 255)] with I := 0xFFF, cfg := wrapConfig } 0x001 5 ∧
    ∀ c, ¬ CycleStoresAt State.reset 0xFFF c := by
  refine ⟨⟨by decide, 15, by decide, rfl, by decide⟩, ⟨by decide, 2, by decide, rfl, by decide⟩, fun c h => h.2⟩
/-- The storing cycle completes, and so does a cycle of the run after it and the fetch there. -/
theorem witness_fetch_of_store : (∃ t, step { start 0xFF55 [(15, 7)] with I := 0xFF0 } = .next t) ∧
    holds (step { start 0xFF55 [(15, 7)] with I := 0xFF0 }) (fun t => isNext (step t) && t.fetch.toOption.isSome) = true ∧
    (0xFFE : Word).toNat % 0x1000 = 0xFFE ∧ ((0xFFE : Word).toNat + 1) % 0x1000 = 0xFFF :=
  ⟨exists_next (by decide), by decide, by decide, by decide⟩

/-- A sprite that covers a pixel of a clear display, and one that turns a set pixel off. -/
theorem witness_draw : holds (exec (.drw 0 0 15) { State.reset with I := 0x050 })
      (fun t => t.disp.pixel 0 0 && t.reg 15 == 0) = true ∧
    holds (exec (.drw 0 0 1) { State.reset with I := 0x050, disp := pixels [(0, 0)] })
      (fun t => !t.disp.pixel 0 0 && t.reg 15 == 1) = true := by decide
theorem witness_clear_display : ∀ r c, State.reset.disp.pixel r c = false := by
  simp [State.reset, State.resetWith, Display.pixel]

theorem witness_key_index : (15 : Fin 16).val = (0x1F : Byte).toNat % 16 := by decide
theorem witness_lowest_key : { State.reset with key := (State.reset.key.set 11 true).set 12 true }.keyPressed 11 = true ∧
    ∀ j < (11 : Fin 16), { State.reset with key := (State.reset.key.set 11 true).set 12 true }.keyPressed j = false := by decide
theorem witness_no_key : ∀ k, State.reset.keyPressed k = false := by decide
theorem witness_key_wait : decodeWord (start 0xF50A [] 0 true).wordAtPc = .ldVxK 5 ∧
    (∀ k, (start 0xF50A [] 0 true).keyPressed k = false) ∧ 1 ≤ (start 0xF50A [] 0 true).inputs.length ∧
    ∀ i ∈ (start 0xF50A [] 0 true).inputs.take 1, i.tick = true := by decide
theorem witness_timer_words : decodeWord (start 0xF307 []).wordAtPc = .ldVxDt 3 ∧
    decodeWord (start 0xF315 []).wordAtPc = .ldDtVx 3 ∧ decodeWord (start 0xF318 []).wordAtPc = .ldStVx 3 := by decide
/-- The states of the witnesses above are fetchable. -/
theorem witness_start_fetchable (w : Nat) (vs : List (RegNum × Byte)) (h : (start w vs).pc = 0x200)
    (hc : (start w vs).cfg = defaultConfig) : (start w vs).Fetchable := by
  unfold State.Fetchable; rw [h, hc]; decide
theorem witness_rom_lengths : (List.replicate 3584 (0 : Byte)).length ≤ 3584 ∧
    3584 < (List.replicate 3585 (0 : Byte)).length := by
  rw [List.length_replicate, List.length_replicate]; decide

end Sys2Proof.Tests
end

section
/-! The word of two bytes as a number, and the byte order of the fetch (R36). -/

namespace Sys2Proof

/-- The high byte is shifted past the low one, and the two do not overlap, so the word is their sum. -/
theorem wordOfBytes_toNat (hi lo : Byte) : (wordOfBytes hi lo).toNat = 256 * hi.toNat + lo.toNat := by
  rw [wordOfBytes, BitVec.toNat_append, ← Nat.shiftLeft_add_eq_or_of_lt lo.isLt, Nat.shiftLeft_eq, Nat.mul_comm]

end Sys2Proof

namespace Sys2Proof.Machine

/-- Settles O9: a fetch that answers gives the word at `pc`, which is the word of the two bytes there. -/
theorem fetchIsBigEndian : Obligations.FetchIsBigEndian := by
  intro s w h
  obtain ⟨-, rfl⟩ := fetch_ok h
  exact wordOfBytes_toNat _ _

end Sys2Proof.Machine
end

section
/-! The decoder against the table of R55. A row's mask keeps every field the decoder reads to choose the shape, so a word
that matches a row decodes as the row's match value does. The other way round, a word is the encoding of what it decodes
to, and an encoding matches its instruction's row. -/

namespace Sys2Proof

/-! ### The fields a mask keeps -/

/-- A field that lies within the mask is the match value's field. -/
theorem extractLsb'_eq_of_and_eq {w m k : Word} {start len : Nat} (hk : k.extractLsb' start len = BitVec.allOnes len)
    (h : w &&& k = m) : w.extractLsb' start len = m.extractLsb' start len := by
  rw [← h, BitVec.extractLsb'_and, hk, BitVec.and_allOnes]

/-- The decoder's default arm is that of the first nibble `F`. -/
theorem eq_F_of_not_mem {op : Nibble} : op ∉ [0x0#4, 0x1#4, 0x2#4, 0x3#4, 0x4#4, 0x5#4, 0x6#4, 0x7#4, 0x8#4, 0x9#4,
    0xA#4, 0xB#4, 0xC#4, 0xD#4, 0xE#4] → op = 0xF#4 := by
  revert op; decide

/-! ### From the row to the instruction -/

/-- The row of `decode8` depends on the last nibble only. -/
theorem rowNumber_decode8_congr {w v : Word} (hn : fieldN w = fieldN v) :
    rowNumber (decode8 w) = rowNumber (decode8 v) := by
  unfold decode8
  rw [hn]
  split <;> rfl

/-- The row of `decodeF` depends on the low byte only. -/
theorem rowNumber_decodeF_congr {w v : Word} (hkk : fieldKK w = fieldKK v) :
    rowNumber (decodeF w) = rowNumber (decodeF v) := by
  unfold decodeF
  rw [hkk]
  split <;> rfl

/-- The fields that choose the row: the first nibble, and with it the whole word (`0`), the last nibble (`5`, `8`, `9`) or
the low byte (`E`, `F`). -/
theorem rowNumber_decodeWord_congr {w v : Word} (hop : fieldOp w = fieldOp v) (h0 : fieldOp v = 0x0#4 → w = v)
    (hn : fieldOp v ∈ [0x5#4, 0x8#4, 0x9#4] → fieldN w = fieldN v)
    (hkk : fieldOp v ∈ [0xE#4, 0xF#4] → fieldKK w = fieldKK v) :
    rowNumber (decodeWord w) = rowNumber (decodeWord v) := by
  unfold decodeWord
  rw [hop]
  split
  case h_1 e => rw [h0 e]
  case h_6 e | h_10 e =>
    rw [hn (by simp [e])]
    split <;> rfl
  case h_9 e => exact rowNumber_decode8_congr (hn (by simp [e]))
  case h_15 e =>
    rw [hkk (by simp [e])]
    split_ifs <;> rfl
  case h_16 =>
    have e : fieldOp v = 0xF#4 := eq_F_of_not_mem (by simp_all)
    exact rowNumber_decodeF_congr (hkk (by simp [e]))
  all_goals rfl

/-- A word that matches a row decodes to that row's instruction: the row's match value does, and the mask keeps the fields
that choose the row. -/
theorem rowNumber_decodeWord_of_match {w : Word} {row : Nat × Word × Word} (hr : row ∈ opcodeRows)
    (h : w &&& row.2.2 = row.2.1) : rowNumber (decodeWord w) = row.1 := by
  have hself : ∀ r ∈ opcodeRows, rowNumber (decodeWord r.2.1) = r.1 := by decide
  have hop : ∀ r ∈ opcodeRows, fieldOp r.2.2 = BitVec.allOnes 4 := by decide
  have h0 : ∀ r ∈ opcodeRows, fieldOp r.2.1 = 0x0#4 → r.2.2 = BitVec.allOnes 16 := by decide
  have hn : ∀ r ∈ opcodeRows, fieldOp r.2.1 ∈ [0x5#4, 0x8#4, 0x9#4] → fieldN r.2.2 = BitVec.allOnes 4 := by decide
  have hkk : ∀ r ∈ opcodeRows, fieldOp r.2.1 ∈ [0xE#4, 0xF#4] → fieldKK r.2.2 = BitVec.allOnes 8 := by decide
  rw [← hself row hr]
  refine rowNumber_decodeWord_congr (extractLsb'_eq_of_and_eq (hop row hr) h) (fun e => ?_)
    (fun e => extractLsb'_eq_of_and_eq (hn row hr e) h) (fun e => extractLsb'_eq_of_and_eq (hkk row hr e) h)
  rwa [h0 row hr e, BitVec.and_allOnes] at h

/-! ### From the instruction to the row -/

theorem formNNN_eq_self {w : Word} {op : Nibble} (hop : fieldOp w = op) : formNNN op (fieldNNN w) = w :=
  hop ▸ formNNN_fields w

theorem formXKK_eq_self {w : Word} {op : Nibble} {kk : Byte} (hop : fieldOp w = op) (hkk : fieldKK w = kk) :
    formXKK op (fieldX w) kk = w :=
  hop ▸ hkk ▸ formXKK_fields w

theorem formXYN_eq_self {w : Word} {op n : Nibble} (hop : fieldOp w = op) (hn : fieldN w = n) :
    formXYN op (fieldX w) (fieldY w) n = w :=
  hop ▸ hn ▸ formXYN_fields w

theorem encodeWord_decode8 {w : Word} (hop : fieldOp w = 0x8#4) : encodeWord (decode8 w) = w := by
  unfold decode8
  split
  case h_10 => rfl
  all_goals exact formXYN_eq_self hop ‹_›

theorem encodeWord_decodeF {w : Word} (hop : fieldOp w = 0xF#4) : encodeWord (decodeF w) = w := by
  unfold decodeF
  split
  case h_10 => rfl
  all_goals exact formXKK_eq_self hop ‹_›

/-- Decoding drops no bit of the word (R53). -/
theorem encodeWord_decodeWord (w : Word) : encodeWord (decodeWord w) = w := by
  unfold decodeWord
  split
  case h_1 => split_ifs with h1 h2 <;> [exact h1.symm; exact h2.symm; rfl]
  case h_2 hop | h_3 hop | h_11 hop | h_12 hop => exact formNNN_eq_self hop
  case h_4 hop | h_5 hop | h_7 hop | h_8 hop | h_13 hop => exact formXKK_eq_self hop rfl
  case h_6 hop | h_10 hop => split_ifs with hn <;> [exact formXYN_eq_self hop hn; rfl]
  case h_9 hop => exact encodeWord_decode8 hop
  case h_14 hop => exact formXYN_eq_self hop rfl
  case h_15 hop => split_ifs with h1 h2 <;> [exact formXKK_eq_self hop h1; exact formXKK_eq_self hop h2; rfl]
  case h_16 => exact encodeWord_decodeF (eq_F_of_not_mem (by simp_all))

/-- The law of each instruction, for an instruction that is not known yet. -/
theorem Laws.EncodesToItsRow.all : ∀ i : Instr, Laws.EncodesToItsRow.Statement i
  | .cls => cls | .ret => ret | .jp a => jp a | .call a => call a
  | .seImm x kk => seImm x kk | .sneImm x kk => sneImm x kk | .seReg x y => seReg x y
  | .ldImm x kk => ldImm x kk | .addImm x kk => addImm x kk | .ldReg x y => ldReg x y
  | .orReg x y => orReg x y | .andReg x y => andReg x y | .xorReg x y => xorReg x y
  | .addReg x y => addReg x y | .sub x y => sub x y | .shr x y => shr x y | .subn x y => subn x y
  | .shl x y => shl x y | .sneReg x y => sneReg x y | .ldI a => ldI a | .jpV0 a => jpV0 a
  | .rnd x kk => rnd x kk | .drw x y n => drw x y n | .skp x => skp x | .sknp x => sknp x
  | .ldVxDt x => ldVxDt x | .ldVxK x => ldVxK x | .ldDtVx x => ldDtVx x | .ldStVx x => ldStVx x
  | .addI x => addI x | .ldF x => ldF x | .ldB x => ldB x | .storeRegs x => storeRegs x
  | .loadRegs x => loadRegs x | .unknown w => unknown w

theorem eq_unknown_of_rowNumber_eq_zero {i : Instr} (h : rowNumber i = 0) : ∃ w, i = .unknown w := by
  cases i with
  | unknown w => exact ⟨w, rfl⟩
  | _ => simp [rowNumber] at h

/-- An instruction of one of the 34 shapes is well formed, whatever its fields (R54). -/
theorem wf_of_rowNumber_ne_zero {i : Instr} (h : rowNumber i ≠ 0) : i.wf = true := by
  cases i with
  | unknown w => exact absurd rfl h
  | _ => rfl

theorem opcodeRows_number_ne_zero : ∀ row ∈ opcodeRows, row.1 ≠ 0 := by decide

/-- A word that decodes to a row's instruction matches the row: it is the encoding of that instruction. -/
theorem match_of_rowNumber_decodeWord {w : Word} {row : Nat × Word × Word} (hr : row ∈ opcodeRows)
    (h : rowNumber (decodeWord w) = row.1) : w &&& row.2.2 = row.2.1 := by
  have hwf := wf_of_rowNumber_ne_zero (h ▸ opcodeRows_number_ne_zero row hr)
  have hm := Laws.EncodesToItsRow.all _ hwf row hr h.symm
  rw [encodeWord_decodeWord] at hm
  exact beq_iff_eq.mp hm

theorem decodeWord_eq_unknown_iff {w : Word} : decodeWord w = .unknown w ↔ rowNumber (decodeWord w) = 0 := by
  refine ⟨fun h => h ▸ rfl, fun h => ?_⟩
  obtain ⟨v, hv⟩ := eq_unknown_of_rowNumber_eq_zero h
  have hvw : encodeWord (.unknown v) = w := hv ▸ encodeWord_decodeWord w
  rw [hv, show v = w from hvw]

/-! ### The table as a whole -/

/-- Every number but the unknown words' own 0 is a row of the table. -/
theorem exists_row_of_rowNumber_ne_zero {i : Instr} (h : rowNumber i ≠ 0) : ∃ row ∈ opcodeRows, row.1 = rowNumber i := by
  have hrows : ∀ n < 35, n ≠ 0 → ∃ row ∈ opcodeRows, row.1 = n := by decide
  refine hrows _ ?_ h
  cases i <;> simp [rowNumber]

theorem opcodeRows_eq_of_number_eq : ∀ p ∈ opcodeRows, ∀ q ∈ opcodeRows, p.1 = q.1 → p = q := by
  have hnodup : (opcodeRows.map Prod.fst).Nodup := by decide
  exact fun p hp q hq => List.inj_on_of_nodup_map hnodup hp hq

/-- Settles O4: matching and decoding give each other row by row; two matched rows both have the decoded instruction's
number; and every instruction but an unknown one has a row. -/
theorem decoderSelectsTheMatchingRow : Obligations.DecoderSelectsTheMatchingRow := by
  refine ⟨fun w row hr => ⟨rowNumber_decodeWord_of_match hr, match_of_rowNumber_decodeWord hr⟩, ?_, fun w => ?_⟩
  · intro w p hp q hq hwp hwq
    have hnum : p.1 = q.1 := (rowNumber_decodeWord_of_match hp hwp).symm.trans (rowNumber_decodeWord_of_match hq hwq)
    exact opcodeRows_eq_of_number_eq p hp q hq hnum
  · rw [decodeWord_eq_unknown_iff]
    constructor
    · intro h0 row hr hm
      exact opcodeRows_number_ne_zero row hr ((rowNumber_decodeWord_of_match hr hm).symm.trans h0)
    · intro hnone
      by_contra hne
      obtain ⟨row, hr, hn⟩ := exists_row_of_rowNumber_ne_zero hne
      exact hnone row hr (match_of_rowNumber_decodeWord hr hn.symm)

end Sys2Proof
end

section
/-! What the end of a cycle writes, the cycle of an unknown word (R66), and the host's reads (R77, R79). -/

namespace Sys2Proof.Machine

/-! ### The end of a cycle (R67, R69) -/

/-- The stop at 0 is that of subtraction on the natural numbers. -/
@[simp] theorem toNat_tickTimer (v : Byte) : (tickTimer v).toNat = v.toNat - 1 := by
  unfold tickTimer
  split
  case isTrue h => simp [h]
  case isFalse h => bv_omega

theorem State.toNat_complete_DT (s : State) (w : Word) :
    (s.complete w).DT.toNat = if s.input.tick = true then s.DT.toNat - 1 else s.DT.toNat := by
  rw [State.complete_DT, apply_ite BitVec.toNat, toNat_tickTimer]

theorem State.toNat_complete_ST (s : State) (w : Word) :
    (s.complete w).ST.toNat = if s.input.tick = true then s.ST.toNat - 1 else s.ST.toNat := by
  rw [State.complete_ST, apply_ite BitVec.toNat, toNat_tickTimer]

theorem State.complete_frame (s : State) (w : Word) :
    s.complete w = { s with DT := (s.complete w).DT, ST := (s.complete w).ST, ir := (s.complete w).ir,
                            inputs := (s.complete w).inputs, draws := (s.complete w).draws } := by
  unfold State.complete State.nextInput
  split <;> rfl

/-! ### Unknown words (R66) -/

@[simp] theorem exec_unknown (w : Word) (s : State) : exec (.unknown w) s = .next s := rfl

/-- A word of no row decodes as unknown, so its cycle is the advance followed by the end of a cycle. -/
theorem step_of_no_matching_row {s : State} (hf : s.Fetchable)
    (hw : ∀ row ∈ opcodeRows, s.wordAtPc &&& row.2.2 ≠ row.2.1) :
    step s = .next (s.advance.complete s.wordAtPc) := by
  obtain ⟨-, -, unknown_iff⟩ := decoderSelectsTheMatchingRow
  have hdec : decodeWord s.wordAtPc = .unknown s.wordAtPc := (unknown_iff s.wordAtPc).mpr hw
  exact step_of_exec_next hf (hdec ▸ exec_unknown _ _)

/-- Settles O10: the unknown instruction leaves the state alone, so what its cycle changes is `pc` by the advance and the
rest by the end of the cycle. -/
theorem unknownWordIsANoOp : Obligations.UnknownWordIsANoOp := by
  refine ⟨fun s w => exec_unknown w s, fun s hf hw => ?_⟩
  refine ⟨s.advance.complete s.wordAtPc, step_of_no_matching_row hf hw, ?pc, State.complete_ir _ _,
    s.advance.toNat_complete_DT _, s.advance.toNat_complete_ST _, ?frame, ?memory⟩
  case pc => rw [State.complete_pc, State.advance_pc, BitVec.toNat_add]; rfl
  case frame =>
    rw [State.complete_pc]
    exact s.advance.complete_frame s.wordAtPc
  case memory => exact fun a => State.complete_readByte _ _ a

/-! ### The host's reads (R77, R79) -/

/-- Settles O54: each of the two operations answers from the state it is given, and hands that state back. -/
theorem hostReadsChangeNothing : Obligations.HostReadsChangeNothing :=
  fun _ => ⟨rfl, rfl⟩

end Sys2Proof.Machine
end

section
/-! From the bits a row's mask keeps to the decoder's fields, and the words of control transfer (R55 rows 2, 3, 5 to 7
and 19). -/

namespace Sys2Proof.Machine

/-! ### Words that match a row, by the mask's format -/

/-- The mask of a shape told by its first nibble alone keeps that nibble. -/
theorem fieldOp_of_and_F000 {w m : Word} (h : w &&& 0xF000 = m) : fieldOp w = fieldOp m :=
  extractLsb'_eq_of_and_eq (by decide) h

theorem decodesAs_of_fieldOp {m : Word} {f : Word → Instr} (h : ∀ w, fieldOp w = fieldOp m → decodeWord w = f w) :
    DecodesAs m 0xF000 f :=
  fun w hw => h w (fieldOp_of_and_F000 hw)

/-- The mask of a shape told by its first and last nibble keeps both. -/
theorem decodesAs_of_fieldOp_fieldN {m : Word} {f : Word → Instr}
    (h : ∀ w, fieldOp w = fieldOp m → fieldN w = fieldN m → decodeWord w = f w) : DecodesAs m 0xF00F f :=
  fun w hw => h w (extractLsb'_eq_of_and_eq (by decide) hw) (extractLsb'_eq_of_and_eq (by decide) hw)

/-- The full mask keeps the whole word. -/
theorem decodesAs_of_eq {m : Word} {f : Word → Instr} (h : decodeWord m = f m) : DecodesAs m 0xFFFF f := by
  intro w hw
  have hwm : w = m := by rwa [show (0xFFFF : Word) = BitVec.allOnes 16 from rfl, BitVec.and_allOnes] at hw
  rw [hwm, h]

theorem and_000F_eq_zero_of_fieldN {w : Word} (h : fieldN w = 0x0#4) : w &&& 0x000F = 0 := by
  have hmod : w.toNat % 2 ^ 4 = 0 := by simpa [fieldN] using congrArg BitVec.toNat h
  apply BitVec.eq_of_toNat_eq
  rw [BitVec.toNat_and]
  exact (Nat.and_two_pow_sub_one_eq_mod w.toNat 4).trans hmod

/-! ### The decoder's arms of control transfer -/

theorem decodeWord_op1 {w : Word} (hop : fieldOp w = 0x1#4) : decodeWord w = .jp (fieldNNN w) := by
  simp only [decodeWord, hop]

theorem decodeWord_op3 {w : Word} (hop : fieldOp w = 0x3#4) : decodeWord w = .seImm (fieldX w) (fieldKK w) := by
  simp only [decodeWord, hop]

theorem decodeWord_op4 {w : Word} (hop : fieldOp w = 0x4#4) : decodeWord w = .sneImm (fieldX w) (fieldKK w) := by
  simp only [decodeWord, hop]

theorem decodeWord_op5 {w : Word} (hop : fieldOp w = 0x5#4) :
    decodeWord w = if fieldN w = 0x0#4 then .seReg (fieldX w) (fieldY w) else .unknown w := by
  simp only [decodeWord, hop]

theorem decodeWord_op9 {w : Word} (hop : fieldOp w = 0x9#4) :
    decodeWord w = if fieldN w = 0x0#4 then .sneReg (fieldX w) (fieldY w) else .unknown w := by
  simp only [decodeWord, hop]

/-- `5xyN` and `9xyN` with `N` not 0 are unknown (R57). -/
theorem decodeWord_eq_unknown_of_and_000F {w : Word} (hop : w &&& 0xF000 = 0x5000 ∨ w &&& 0xF000 = 0x9000)
    (hn : w &&& 0x000F ≠ 0) : decodeWord w = .unknown w := by
  have hN : fieldN w ≠ 0x0#4 := mt and_000F_eq_zero_of_fieldN hn
  rcases hop with h5 | h9
  · rw [decodeWord_op5 (fieldOp_of_and_F000 h5), if_neg hN]
  · rw [decodeWord_op9 (fieldOp_of_and_F000 h9), if_neg hN]

end Sys2Proof.Machine
end

section
/-! Control transfer: how a new `pc` is set, what the next fetch says of it (R63), and the jump, the return and the skips
(R84, R85, R87 to R90). -/

namespace Sys2Proof.Machine

/-! ### Setting `pc` -/

theorem setsPc_of_exec {i : Instr} {s : State} {p : Word} {n : Nat} (he : exec i s = .next { s with pc := p })
    (hn : p.toNat = n) : SetsPc i s n :=
  ⟨_, he, hn, rfl, fun _ => rfl⟩

@[simp] theorem toNat_zextAddr (nnn : Addr12) : (zextAddr nnn).toNat = nnn.toNat :=
  BitVec.toNat_setWidth_of_le (by decide)

/-- A skip on a condition sets `pc` by that condition (R82). -/
theorem setsPc_of_skipIf {i : Instr} {s : State} {c : Bool} {P : Prop} [Decidable P]
    (he : exec i s = .next (s.skipIf c)) (hc : c = true ↔ P) :
    SetsPc i s (if P then (s.pc.toNat + 2) % 65536 else s.pc.toNat) := by
  refine setsPc_of_exec he ?_
  rw [apply_ite BitVec.toNat, BitVec.toNat_add]
  simp only [hc]
  rfl

/-! ### The fetch's two errors (R63, in the order of R129) -/

theorem fetch_of_misaligned {s : State} (hc : s.cfg.pcAlignCheck = true) (hodd : s.pc.toNat % 2 = 1) :
    s.fetch = .error (.pcMisaligned s.pc) := by
  rw [State.fetch, hc, (getLsbD_zero_iff s.pc).mpr hodd]
  rfl

theorem fetch_of_outOfRange {s : State} (ha : ¬ (s.cfg.pcAlignCheck = true ∧ s.pc.toNat % 2 = 1))
    (hm : s.cfg.addrMode = .fault) (hp : 0xFFE < s.pc.toNat) : s.fetch = .error (.pcOutOfRange s.pc) := by
  rw [← getLsbD_zero_iff, ← Bool.and_eq_true] at ha
  rw [State.fetch, if_neg ha, if_pos ⟨hm, hp⟩]

theorem step_of_fetch_error {s : State} {f : Fault} (h : s.fetch = .error f) : step s = .fault f := by
  rw [step, h]

/-- No instruction changes the parameters, so those it ran under decide what the next fetch says of the `pc` it left. -/
theorem next_fetch_reports_pc {i : Instr} {s t : State} (h : exec i s = .next t) :
    (s.cfg.pcAlignCheck = true → t.pc.toNat % 2 = 1 → step t = .fault (.pcMisaligned t.pc)) ∧
    (¬ (s.cfg.pcAlignCheck = true ∧ t.pc.toNat % 2 = 1) → s.cfg.addrMode = .fault → 0xFFE < t.pc.toNat →
      step t = .fault (.pcOutOfRange t.pc)) := by
  obtain ⟨hcfg, -⟩ := exec_next_kept h
  rw [← hcfg]
  exact ⟨fun hc hodd => step_of_fetch_error (fetch_of_misaligned hc hodd),
    fun ha hm hp => step_of_fetch_error (fetch_of_outOfRange ha hm hp)⟩

/-! ### The jump (R84) -/

theorem exec_jp (nnn : Addr12) (s : State) : exec (.jp nnn) s = .next { s with pc := zextAddr nnn } := rfl

/-- Settles O28: the next fetch reports the `pc` that JP left, and 0xFFF is past 0xFFE. -/
theorem jumpGoesToItsTarget : Obligations.JumpGoesToItsTarget := by
  refine ⟨decodesAs_of_fieldOp fun _ hop => decodeWord_op1 hop,
    fun s nnn => setsPc_of_exec (exec_jp nnn s) (toNat_zextAddr nnn), fun s t nnn h => ?_⟩
  obtain ⟨misaligned, outOfRange⟩ := next_fetch_reports_pc h
  cases h
  refine ⟨fun hc hodd => misaligned hc ((toNat_zextAddr nnn).symm ▸ hodd), fun hc hm hn => ?_⟩
  have hpast : 0xFFE < (zextAddr nnn).toNat := by rw [hn]; decide
  exact outOfRange (by simp [hc]) hm hpast

/-! ### The return (R85) -/

theorem exec_ret_of_empty {s : State} (h : s.sp = 0) : exec .ret s = .fault (.stackUnderflow s.cpc) :=
  if_pos (beq_iff_eq.mpr h)

theorem exec_ret_of_nonempty {s : State} (h : s.sp ≠ 0) : exec .ret s = .next s.popPc :=
  if_neg (mt beq_iff_eq.mp h)

/-- An error commits nothing (R68, R128). -/
theorem opCycle_of_step_fault {inp : CycleInput} {s : State} {f : Fault}
    (h : step { s with inputs := inp :: s.inputs } = .fault f) : opCycle inp s = (s, .error f) := by
  rw [opCycle, h]

/-- RET on an empty stack, fetched in its own cycle: the address reported is the one it was fetched from. -/
theorem step_ret_of_empty {s : State} (hf : s.Fetchable) (hw : decodeWord s.wordAtPc = .ret) (hsp : s.sp = 0) :
    step s = .fault (.stackUnderflow s.pc) := by
  refine step_of_exec_fault hf ?_
  rw [hw, exec_ret_of_empty (by simpa using hsp), State.advance_cpc]

theorem toNat_popPc_sp {s : State} (h : s.sp ≠ 0) : s.popPc.sp.toNat + 1 = s.sp.toNat := by
  rw [State.popPc_sp]
  bv_omega

/-- Settles O31: the two cases of the stack, and the next fetch's report on the popped `pc`. -/
theorem returnPopsTheReturnAddress : Obligations.ReturnPopsTheReturnAddress := by
  refine ⟨decodesAs_of_eq (by decide), fun s hsp => exec_ret_of_empty hsp, fun s inp hf hw hsp => ?cycle,
    fun s hsp _ => ?pop, fun s t _ h => next_fetch_reports_pc h⟩
  case cycle => exact opCycle_of_step_fault (step_ret_of_empty (s := { s with inputs := inp :: s.inputs }) hf hw hsp)
  case pop => exact ⟨s.popPc, exec_ret_of_nonempty hsp, toNat_popPc_sp hsp, rfl, rfl, fun _ => rfl⟩

/-! ### The skips (R87 to R90) -/

/-- Settles O33: each instruction is a skip on its comparison. -/
theorem compareSkipsTheNextInstruction : Obligations.CompareSkipsTheNextInstruction := by
  refine ⟨decodesAs_of_fieldOp fun _ hop => decodeWord_op3 hop, decodesAs_of_fieldOp fun _ hop => decodeWord_op4 hop,
    decodesAs_of_fieldOp_fieldN fun _ hop hn => (decodeWord_op5 hop).trans (if_pos hn),
    decodesAs_of_fieldOp_fieldN fun _ hop hn => (decodeWord_op9 hop).trans (if_pos hn),
    fun _ => decodeWord_eq_unknown_of_and_000F, fun s x y kk => ⟨?seImm, ?sneImm, ?seReg, ?sneReg⟩⟩
  case seImm => exact setsPc_of_skipIf (c := s.reg x == kk) rfl beq_iff_eq
  case sneImm => exact setsPc_of_skipIf (c := s.reg x != kk) rfl bne_iff_ne
  case seReg => exact setsPc_of_skipIf (c := s.reg x == s.reg y) rfl beq_iff_eq
  case sneReg => exact setsPc_of_skipIf (c := s.reg x != s.reg y) rfl bne_iff_ne

end Sys2Proof.Machine
end

section
/-! Loads into a register, `7xkk` and the bitwise instructions (R94 to R99): the words, and the one register written. -/

namespace Sys2Proof.Machine

/-! ### The decoder's arms -/

theorem decodeWord_op6 {w : Word} (hop : fieldOp w = 0x6#4) : decodeWord w = .ldImm (fieldX w) (fieldKK w) := by
  simp only [decodeWord, hop]

theorem decodeWord_op7 {w : Word} (hop : fieldOp w = 0x7#4) : decodeWord w = .addImm (fieldX w) (fieldKK w) := by
  simp only [decodeWord, hop]

theorem decodeWord_op8 {w : Word} (hop : fieldOp w = 0x8#4) : decodeWord w = decode8 w := by
  simp only [decodeWord, hop]

/-- A shape `8xyN` is told by its last nibble (R55 rows 10 to 18). -/
theorem decodesAs_of_decode8 {m : Word} {f : Word → Instr} (hop : fieldOp m = 0x8#4)
    (h : ∀ w, fieldN w = fieldN m → decode8 w = f w) : DecodesAs m 0xF00F f :=
  decodesAs_of_fieldOp_fieldN fun w hw hn => (decodeWord_op8 (hw.trans hop)).trans (h w hn)

theorem decode8_n0 {w : Word} (hn : fieldN w = 0x0#4) : decode8 w = .ldReg (fieldX w) (fieldY w) := by
  simp only [decode8, hn]

theorem decode8_n1 {w : Word} (hn : fieldN w = 0x1#4) : decode8 w = .orReg (fieldX w) (fieldY w) := by
  simp only [decode8, hn]

theorem decode8_n2 {w : Word} (hn : fieldN w = 0x2#4) : decode8 w = .andReg (fieldX w) (fieldY w) := by
  simp only [decode8, hn]

theorem decode8_n3 {w : Word} (hn : fieldN w = 0x3#4) : decode8 w = .xorReg (fieldX w) (fieldY w) := by
  simp only [decode8, hn]

/-! ### Setting one register -/

/-- An instruction whose whole effect is `setReg` writes that register, VF or not, and keeps all else. -/
theorem setsReg_of_exec {i : Instr} {s : State} {x : RegNum} {v : Byte} (he : exec i s = .next (s.setReg x v)) :
    SetsReg i s x v :=
  ⟨_, he, s.reg_setReg_self x v, fun _ hr => s.reg_setReg_ne v hr, rfl, s.setReg_readByte x v⟩

theorem exec_ldImm (x : RegNum) (kk : Byte) (s : State) : exec (.ldImm x kk) s = .next (s.setReg x kk) := rfl

theorem exec_addImm (x : RegNum) (kk : Byte) (s : State) :
    exec (.addImm x kk) s = .next (s.setReg x (trunc8 ((s.reg x).toNat + kk.toNat))) := rfl

theorem exec_ldReg (x y : RegNum) (s : State) : exec (.ldReg x y) s = .next (s.setReg x (s.reg y)) := rfl

theorem exec_orReg (x y : RegNum) (s : State) : exec (.orReg x y) s = .next (s.setReg x (s.reg x ||| s.reg y)) := rfl

theorem exec_andReg (x y : RegNum) (s : State) : exec (.andReg x y) s = .next (s.setReg x (s.reg x &&& s.reg y)) := rfl

theorem exec_xorReg (x y : RegNum) (s : State) : exec (.xorReg x y) s = .next (s.setReg x (s.reg x ^^^ s.reg y)) := rfl

/-- Truncation to eight bits is the modulo 256 of R95. -/
@[simp] theorem toNat_trunc8 (n : Nat) : (trunc8 n).toNat = n % 256 := BitVec.toNat_ofNat n 8

/-- Settles O34: each instruction is one `setReg`, of the value its rule states. -/
theorem loadsAndLogicSetOnlyTheirDestination : Obligations.LoadsAndLogicSetOnlyTheirDestination := by
  refine ⟨decodesAs_of_fieldOp fun _ hop => decodeWord_op6 hop, decodesAs_of_fieldOp fun _ hop => decodeWord_op7 hop,
    decodesAs_of_decode8 rfl fun _ hn => decode8_n0 hn, decodesAs_of_decode8 rfl fun _ hn => decode8_n1 hn,
    decodesAs_of_decode8 rfl fun _ hn => decode8_n2 hn, decodesAs_of_decode8 rfl fun _ hn => decode8_n3 hn,
    fun s x y kk => ⟨?ldImm, ?addImm, ?ldReg, ?orReg, ?andReg, ?xorReg⟩⟩
  case ldImm => exact setsReg_of_exec (exec_ldImm x kk s)
  case addImm => exact ⟨_, setsReg_of_exec (exec_addImm x kk s), toNat_trunc8 _⟩
  case ldReg => exact setsReg_of_exec (exec_ldReg x y s)
  case orReg => exact ⟨_, setsReg_of_exec (exec_orReg x y s), fun _ _ => BitVec.getLsbD_or⟩
  case andReg => exact ⟨_, setsReg_of_exec (exec_andReg x y s), fun _ _ => BitVec.getLsbD_and⟩
  case xorReg => exact ⟨_, setsReg_of_exec (exec_xorReg x y s), fun _ _ => BitVec.getLsbD_xor⟩

end Sys2Proof.Machine
end

section
/-! The index register: the `Fx__` words (R55 rows 26 to 34), how a new `I` is set, and the load and the addition (R106,
R107). -/

namespace Sys2Proof.Machine

/-! ### The decoder's arms -/

/-- The mask of a shape told by its first nibble and its low byte keeps both. -/
theorem decodesAs_of_fieldOp_fieldKK {m : Word} {f : Word → Instr}
    (h : ∀ w, fieldOp w = fieldOp m → fieldKK w = fieldKK m → decodeWord w = f w) : DecodesAs m 0xF0FF f :=
  fun w hw => h w (extractLsb'_eq_of_and_eq (by decide) hw) (extractLsb'_eq_of_and_eq (by decide) hw)

theorem decodeWord_opA {w : Word} (hop : fieldOp w = 0xA#4) : decodeWord w = .ldI (fieldNNN w) := by
  simp only [decodeWord, hop]

/-- The decoder's default arm, which is reached with the first nibble `F` (`eq_F_of_not_mem`). -/
theorem decodeWord_opF {w : Word} (hop : fieldOp w = 0xF#4) : decodeWord w = decodeF w := by
  unfold decodeWord
  rw [hop]
  rfl

/-- A shape `Fx__` is told by its low byte (R55 rows 26 to 34). -/
theorem decodesAs_of_decodeF {m : Word} {f : Word → Instr} (hop : fieldOp m = 0xF#4)
    (h : ∀ w, fieldKK w = fieldKK m → decodeF w = f w) : DecodesAs m 0xF0FF f :=
  decodesAs_of_fieldOp_fieldKK fun w hw hkk => (decodeWord_opF (hw.trans hop)).trans (h w hkk)

theorem decodeF_kk1E {w : Word} (hkk : fieldKK w = 0x1E#8) : decodeF w = .addI (fieldX w) := by
  simp only [decodeF, hkk]

/-! ### Setting `I` -/

/-- An instruction whose whole effect is a new `I` keeps all else: the registers with VF, and the memory. -/
theorem setsIndex_of_exec {i : Instr} {s : State} {v : Word} {n : Nat} (he : exec i s = .next { s with I := v })
    (hn : v.toNat = n) : SetsIndex i s n :=
  ⟨_, he, hn, rfl, fun _ => rfl⟩

theorem exec_ldI (nnn : Addr12) (s : State) : exec (.ldI nnn) s = .next { s with I := zextAddr nnn } := rfl

theorem exec_addI (x : RegNum) (s : State) :
    exec (.addI x) s = .next { s with I := s.I + (s.reg x).setWidth 16 } := rfl

/-- A byte added to a word: the widening loses nothing, so only the sum is modulo 65536 (R107). -/
theorem toNat_add_setWidth_byte (a : Word) (b : Byte) : (a + b.setWidth 16).toNat = (a.toNat + b.toNat) % 65536 := by
  rw [BitVec.toNat_add, BitVec.toNat_setWidth_of_le (by decide)]

/-- Settles O38: each instruction's whole effect is one new `I`, `nnn` widened or the word sum with Vx. -/
theorem indexLoadAndAdd : Obligations.IndexLoadAndAdd := by
  refine ⟨decodesAs_of_fieldOp fun _ hop => decodeWord_opA hop, decodesAs_of_decodeF rfl fun _ hkk => decodeF_kk1E hkk,
    fun s x nnn => ⟨?ldI, ?addI⟩⟩
  case ldI => exact setsIndex_of_exec (exec_ldI nnn s) (toNat_zextAddr nnn)
  case addI => exact setsIndex_of_exec (exec_addI x s) (toNat_add_setWidth_byte s.I (s.reg x))

end Sys2Proof.Machine
end

section
/-! The clear screen (R113): the word `00E0` and the one display it leaves. -/

namespace Sys2Proof.Machine

/-- The whole effect of `CLS` is the clear display: VF and memory are fields it does not name. -/
theorem exec_cls (s : State) : exec .cls s = .next { s with disp := Display.clear } := rfl

/-- Settles O45: the display left is `Display.clear`, whose every pixel is false. -/
theorem clsClearsEveryPixel : Obligations.ClsClearsEveryPixel :=
  ⟨decodesAs_of_eq (by decide), fun s => ⟨_, exec_cls s, Display.pixel_clear, rfl, fun _ => rfl⟩⟩

end Sys2Proof.Machine
end

section
/-! The timer transfers (R121, R123, R124): the words, the one register or timer written, and the whole cycles. -/

namespace Sys2Proof.Machine

/-! ### The decoder's arms -/

theorem decodeF_kk07 {w : Word} (hkk : fieldKK w = 0x07#8) : decodeF w = .ldVxDt (fieldX w) := by
  simp only [decodeF, hkk]

theorem decodeF_kk15 {w : Word} (hkk : fieldKK w = 0x15#8) : decodeF w = .ldDtVx (fieldX w) := by
  simp only [decodeF, hkk]

theorem decodeF_kk18 {w : Word} (hkk : fieldKK w = 0x18#8) : decodeF w = .ldStVx (fieldX w) := by
  simp only [decodeF, hkk]

/-! ### The instructions -/

theorem exec_ldVxDt (x : RegNum) (s : State) : exec (.ldVxDt x) s = .next (s.setReg x s.DT) := rfl

theorem exec_ldDtVx (x : RegNum) (s : State) : exec (.ldDtVx x) s = .next { s with DT := s.reg x } := rfl

theorem exec_ldStVx (x : RegNum) (s : State) : exec (.ldStVx x) s = .next { s with ST := s.reg x } := rfl

/-! ### The cycles -/

/-- The cycle of a known instruction that completes: the end of the cycle on what it left after the advance. -/
theorem step_of_decode_of_exec_next {s u : State} {i : Instr} (hf : s.Fetchable) (hw : decodeWord s.wordAtPc = i)
    (he : exec i s.advance = .next u) : step s = .next (u.complete s.wordAtPc) :=
  step_of_exec_next hf (hw ▸ he)

/-- The register takes the `DT` the cycle began with, and that same `DT` then ticks. -/
theorem step_ldVxDt {s : State} {x : RegNum} (hf : s.Fetchable) (hw : decodeWord s.wordAtPc = .ldVxDt x) :
    ∃ t, step s = .next t ∧ t.reg x = s.DT ∧
      t.DT.toNat = (if s.input.tick = true then s.DT.toNat - 1 else s.DT.toNat) := by
  refine ⟨_, step_of_decode_of_exec_next hf hw (exec_ldVxDt x s.advance), ?reg, State.toNat_complete_DT _ _⟩
  rw [State.complete_reg, State.reg_setReg_self, State.advance_DT]

/-- The tick applies to the `DT` just written (R67). -/
theorem step_ldDtVx {s : State} {x : RegNum} (hf : s.Fetchable) (hw : decodeWord s.wordAtPc = .ldDtVx x) :
    ∃ t, step s = .next t ∧
      t.DT.toNat = (if s.input.tick = true then (s.reg x).toNat - 1 else (s.reg x).toNat) :=
  ⟨_, step_of_decode_of_exec_next hf hw (exec_ldDtVx x s.advance), State.toNat_complete_DT _ _⟩

/-- The tick applies to the `ST` just written (R67). -/
theorem step_ldStVx {s : State} {x : RegNum} (hf : s.Fetchable) (hw : decodeWord s.wordAtPc = .ldStVx x) :
    ∃ t, step s = .next t ∧
      t.ST.toNat = (if s.input.tick = true then (s.reg x).toNat - 1 else (s.reg x).toNat) :=
  ⟨_, step_of_decode_of_exec_next hf hw (exec_ldStVx x s.advance), State.toNat_complete_ST _ _⟩

/-- Settles O51: each instruction's whole effect is one new register or timer, and its cycle ticks the timers it left. -/
theorem timerTransfersAndTheirTick : Obligations.TimerTransfersAndTheirTick := by
  refine ⟨decodesAs_of_decodeF rfl fun _ hkk => decodeF_kk07 hkk, decodesAs_of_decodeF rfl fun _ hkk => decodeF_kk15 hkk,
    decodesAs_of_decodeF rfl fun _ hkk => decodeF_kk18 hkk, fun s x => ⟨?ldVxDt, ?ldDtVx, ?ldStVx⟩,
    fun s x hf => ⟨step_ldVxDt hf, step_ldDtVx hf, step_ldStVx hf⟩⟩
  case ldVxDt => exact setsReg_of_exec (exec_ldVxDt x s)
  case ldDtVx => exact ⟨_, exec_ldDtVx x s, rfl, rfl, fun _ => rfl⟩
  case ldStVx => exact ⟨_, exec_ldStVx x s, rfl, rfl, fun _ => rfl⟩

end Sys2Proof.Machine
end

section
/-! The encoding both ways (R53, R55, R57): the unknown words group by group, and the decoder on the word of each
well-formed instruction. -/

namespace Sys2Proof

/-! ### The unknown words of each group (R57) -/

theorem fieldOp_of_isUnknownWord {w : Word} (h : isUnknownWord w = true) :
    fieldOp w ∈ [0x0#4, 0x5#4, 0x8#4, 0x9#4, 0xE#4, 0xF#4] := by
  simp only [isUnknownWord, Bool.or_eq_true, Bool.and_eq_true, beq_iff_eq] at h
  simp only [List.mem_cons, fieldOp]
  tauto

theorem isUnknownWord_op0 {w : Word} (hop : fieldOp w = 0x0#4) :
    isUnknownWord w = (w != 0x00E0#16 && w != 0x00EE#16) := by
  rw [fieldOp] at hop
  simp [isUnknownWord, hop]

theorem isUnknownWord_op5_op9 {w : Word} (hop : fieldOp w = 0x5#4 ∨ fieldOp w = 0x9#4) :
    isUnknownWord w = (fieldN w != 0x0#4) := by
  rw [fieldOp] at hop
  rcases hop with hop | hop <;> simp [isUnknownWord, hop, fieldN]

theorem isUnknownWord_op8 {w : Word} (hop : fieldOp w = 0x8#4) :
    isUnknownWord w = [0x8#4, 0x9#4, 0xA#4, 0xB#4, 0xC#4, 0xD#4, 0xF#4].contains (fieldN w) := by
  rw [fieldOp] at hop
  simp [isUnknownWord, hop, fieldN]

theorem isUnknownWord_opE {w : Word} (hop : fieldOp w = 0xE#4) :
    isUnknownWord w = (fieldKK w != 0x9E#8 && fieldKK w != 0xA1#8) := by
  rw [fieldOp] at hop
  simp [isUnknownWord, hop, fieldKK]

theorem isUnknownWord_opF {w : Word} (hop : fieldOp w = 0xF#4) :
    isUnknownWord w =
      !([0x07#8, 0x0A#8, 0x15#8, 0x18#8, 0x1E#8, 0x29#8, 0x33#8, 0x55#8, 0x65#8].contains (fieldKK w)) := by
  rw [fieldOp] at hop
  simp [isUnknownWord, hop, fieldKK]

theorem decode8_eq_unknown_iff {w : Word} (hop : fieldOp w = 0x8#4) :
    decode8 w = .unknown w ↔ isUnknownWord w = true := by
  have others : ∀ n : Nibble, n ∉ [0x0#4, 0x1#4, 0x2#4, 0x3#4, 0x4#4, 0x5#4, 0x6#4, 0x7#4, 0xE#4] →
      [0x8#4, 0x9#4, 0xA#4, 0xB#4, 0xC#4, 0xD#4, 0xF#4].contains n = true := by decide
  rw [isUnknownWord_op8 hop]
  unfold decode8
  split
  case h_10 => exact iff_of_true rfl (others _ (by simp_all))
  all_goals simp [*]

theorem decodeF_eq_unknown_iff {w : Word} (hop : fieldOp w = 0xF#4) :
    decodeF w = .unknown w ↔ isUnknownWord w = true := by
  rw [isUnknownWord_opF hop]
  unfold decodeF
  split
  case h_10 => simp_all
  all_goals simp [*]

/-- The groups of R57 are the words the decoder makes nothing of. -/
theorem decodeWord_eq_unknown_iff_isUnknownWord (w : Word) : decodeWord w = .unknown w ↔ isUnknownWord w = true := by
  unfold decodeWord
  split
  case h_1 hop => rw [isUnknownWord_op0 hop]; split_ifs <;> simp [*]
  case h_6 hop => rw [isUnknownWord_op5_op9 (.inl hop)]; split_ifs <;> simp [*]
  case h_9 hop => exact decode8_eq_unknown_iff hop
  case h_10 hop => rw [isUnknownWord_op5_op9 (.inr hop)]; split_ifs <;> simp [*]
  case h_15 hop => rw [isUnknownWord_opE hop]; split_ifs <;> simp [*]
  case h_16 => exact decodeF_eq_unknown_iff (eq_F_of_not_mem (by simp_all))
  all_goals
    refine iff_of_false (by simp) fun h => ?_
    simpa [*] using fieldOp_of_isUnknownWord h

/-- Every word decodes to a well-formed term: an unknown one carries the word itself, which the encoder gives back. -/
theorem wf_decodeWord (w : Word) : (decodeWord w).wf = true := by
  by_cases h : rowNumber (decodeWord w) = 0
  · have hw := decodeWord_eq_unknown_iff.mpr h
    rw [hw]
    exact (decodeWord_eq_unknown_iff_isUnknownWord w).mp hw
  · exact wf_of_rowNumber_ne_zero h

/-- Settles O3: the decoded term is well formed, and its encoding has every bit of the word. -/
theorem encodeOfDecodeIsTheWord : Obligations.EncodeOfDecodeIsTheWord :=
  fun w => ⟨wf_decodeWord w, encodeWord_decodeWord w⟩

/-- Settles O5: both sides say that the decoder answers `unknown`. -/
theorem unknownWordsAreThoseOfTheGroups : Obligations.UnknownWordsAreThoseOfTheGroups := by
  intro w
  obtain ⟨-, -, unknown_iff⟩ := decoderSelectsTheMatchingRow
  rw [← decodeWord_eq_unknown_iff_isUnknownWord, unknown_iff]
  simp [matchesRow]

/-! ### Decoding an encoding -/

/-- The fields put into a form are the fields the decoder reads from it (the laws of the forms), so each shape gives its
operands back, the shapes `8xy_` and `Fx__` through their own decoders; an unknown word is one that the decoder makes
nothing of. -/
theorem decodeWord_encodeWord {i : Instr} (h : i.wf = true) : decodeWord (encodeWord i) = i := by
  cases i
  case unknown w => exact (decodeWord_eq_unknown_iff_isUnknownWord w).mpr h
  case cls | ret => rfl
  case ldReg | orReg | andReg | xorReg | addReg | sub | shr | subn | shl =>
    exact (Machine.decodeWord_op8 (fieldOp_formXYN ..)).trans (by simp [decode8])
  case ldVxDt | ldVxK | ldDtVx | ldStVx | addI | ldF | ldB | storeRegs | loadRegs =>
    exact (Machine.decodeWord_opF (fieldOp_formXKK ..)).trans (by simp [decodeF])
  all_goals simp [encodeWord, decodeWord]

theorem decode_encode_append {i : Instr} (rest : List Byte) (h : i.wf = true) :
    decode (encode i ++ rest) = .ok (i, rest) := by
  simp [encode, bytesOfWord, decodeWord_encodeWord h]

/-- Settles O2: the word of an instruction decodes to it, and its two bytes are read as that word. -/
theorem decodeOfEncodeIsTheInstruction : Obligations.DecodeOfEncodeIsTheInstruction :=
  fun _ rest h => ⟨decodeWord_encodeWord h, decode_encode_append rest h⟩

/-- Settles O1: the fifteen words are evaluated. -/
theorem wordsOfEachFormatDecode : Obligations.WordsOfEachFormatDecode := by
  unfold Obligations.WordsOfEachFormatDecode
  decide

end Sys2Proof
end

section
/-! Memory as data (spec/10_state.md section 9): what a canonical list holds is what its memory reads, so reading decides
the list. -/

namespace Sys2Proof.Machine

/-! ### Unlisted addresses -/

theorem Memory.unlisted_font (font : Vector Byte 80) {k : Nat} (h : k < 80) :
    Memory.unlisted font (0x050 + k) = font[k] := by
  have hf : InFont (0x050 + k) := ⟨by omega, by omega⟩
  rw [Memory.unlisted, dif_pos hf]
  simp

theorem Memory.unlisted_of_not_inFont (font : Vector Byte 80) {a : Nat} (h : ¬ InFont a) :
    Memory.unlisted font a = 0 :=
  dif_neg h

/-! ### The canonical list -/

/-- In a list of rising addresses, an entry is the one its address finds. -/
theorem Memory.lookup_of_mem {m : Memory} (hm : m.Pairwise (fun p q => p.1 < q.1)) {p : Host.Cell} (hp : p ∈ m) :
    m.lookup p.1 = some p.2 := by
  obtain ⟨l, r, rfl⟩ := List.append_of_mem hp
  obtain ⟨-, -, hl⟩ := List.pairwise_append.mp hm
  refine List.lookup_eq_some_iff.mpr ⟨l, r, rfl, fun q hq => ?_⟩
  exact bne_iff_ne.mpr (Nat.ne_of_gt (hl q hq p (List.mem_cons_self ..)))

/-- A canonical memory lists a byte exactly when it reads it there and the address, unlisted, would read another. -/
theorem Memory.mem_iff_read {font : Vector Byte 80} {m : Memory} (h : Memory.wf font m) (p : Host.Cell) :
    p ∈ m ↔ Memory.read font m p.1 = p.2 ∧ p.2 ≠ Memory.unlisted font p.1 := by
  obtain ⟨rising, listed⟩ := h
  constructor
  · intro hp
    obtain ⟨-, hne⟩ := listed p hp
    exact ⟨by rw [Memory.read, Memory.lookup_of_mem rising hp], hne⟩
  · rintro ⟨hread, hne⟩
    unfold Memory.read at hread
    split at hread
    · rename_i b hb
      obtain ⟨l, r, rfl, -⟩ := List.lookup_eq_some_iff.mp (hread ▸ hb)
      simp
    · exact absurd hread.symm hne

/-- Settles O21: the two lists have the same entries, those that the common reading tells, in the one rising order. -/
theorem canonicalMemoriesThatReadAlikeAreEqual : Obligations.CanonicalMemoriesThatReadAlikeAreEqual := by
  intro font m m' hm hm' hread
  have : Std.Antisymm fun p q : Host.Cell => p.1 < q.1 := ⟨fun _ _ h h' => absurd h (Nat.lt_asymm h')⟩
  have : Std.Irrefl fun p q : Host.Cell => p.1 < q.1 := ⟨fun p => Nat.lt_irrefl p.1⟩
  refine hm.1.eq_of_mem_iff hm'.1 fun p => ?_
  rw [Memory.mem_iff_read hm, Memory.mem_iff_read hm', hread]

end Sys2Proof.Machine
end

section
/-! The state after reset (R32, R140), and the invariant: every operation of the machine and of the host keeps it (R33, R44,
R22). -/

namespace Sys2Proof.Machine

/-! ### The state after reset -/

theorem State.resetWith_stackEntry (cfg : Config) (j : Nat) : (State.resetWith cfg).stackEntry j = 0 := by
  by_cases h : j < 16 <;> simp [State.stackEntry, State.resetWith, h]

/-- Settles O17: nothing is listed, and the stack is empty. -/
theorem resetMeetsTheInvariant : Obligations.ResetMeetsTheInvariant := fun cfg =>
  { memory_wf := ⟨List.Pairwise.nil, by simp [State.resetWith]⟩
    font_unlisted := by simp [State.resetWith]
    sp_le := Nat.zero_le _
    stack_tail := fun j _ => State.resetWith_stackEntry cfg j }

/-- Settles O16: memory reads as unlisted everywhere, the vectors are constant, and the other fields are written out. -/
theorem resetLeavesTheTabledValues : Obligations.ResetLeavesTheTabledValues := by
  refine ⟨rfl, rfl, rfl, rfl, rfl, rfl, fun r => ?regs, State.resetWith_stackEntry _, fun k => ?keys, fun r c => ?pixels,
    fun a ha => Memory.unlisted_of_not_inFont _ ha, fun k hk => Memory.unlisted_font _ hk, rfl, rfl, rfl, rfl⟩
  case regs => simp [State.reset, State.resetWith, State.reg]
  case keys => simp [State.reset, State.resetWith, State.keyPressed]
  case pixels => exact Display.pixel_clear r c

/-- The invariant speaks of the parameters, the memory, `sp` and the stack only. -/
theorem State.Inv.congr {s t : State} (h : s.Inv) (hcfg : t.cfg = s.cfg) (hmem : t.memory = s.memory)
    (hsp : t.sp = s.sp) (hstack : t.stack = s.stack) : t.Inv where
  memory_wf := by rw [hcfg, hmem]; exact h.memory_wf
  font_unlisted := by rw [hmem]; exact h.font_unlisted
  sp_le := by rw [hcfg, hsp]; exact h.sp_le
  stack_tail := by rw [hcfg]; simpa only [State.stackEntry, hstack] using h.stack_tail

/-- Settles O56: `Reset` answers the state after reset of the same parameters, with the inputs of the model as they were. -/
theorem resetOperationRestoresEverything : Obligations.ResetOperationRestoresEverything := fun s =>
  ⟨opReset s, rfl, rfl, fun _ ha => Memory.unlisted_of_not_inFont _ ha, fun _ hk => Memory.unlisted_font _ hk,
    (resetMeetsTheInvariant s.cfg).congr rfl rfl rfl rfl⟩

/-! ### Each update keeps the invariant -/

theorem stackDepth_le (c : Config) : c.stackDepth ≤ 16 := by
  have := c.depthAbove12.isLt
  unfold Config.stackDepth
  omega

theorem State.Inv.writeByte {s : State} {a : Nat} (h : s.Inv) (b : Byte) (ha : a < memSize) (hf : ¬ InFont a) :
    (s.writeByte a b).Inv where
  memory_wf := State.writeByte_wf h.memory_wf ha
  font_unlisted := fun p hp => by
    rcases Memory.mem_write hp with rfl | hp
    · exact hf
    · exact h.font_unlisted p hp
  sp_le := h.sp_le
  stack_tail := h.stack_tail

theorem State.Inv.storeByte {s : State} {a : Nat} (h : s.Inv) (b : Byte) (ha : a < memSize) : (s.storeByte a b).Inv := by
  unfold State.storeByte
  split
  case isTrue => exact h
  case isFalse hf => exact h.writeByte b ha hf

theorem State.Inv.storeBytes {s : State} {cells : List (Nat × Byte)} (h : s.Inv) (hc : ∀ p ∈ cells, p.1 < memSize) :
    (s.storeBytes cells).Inv := by
  induction cells generalizing s with
  | nil => exact h
  | cons p rest ih =>
    rw [List.forall_mem_cons] at hc
    exact ih (h.storeByte p.2 hc.1) hc.2

/-- A block above the font, within memory. -/
theorem State.Inv.copyBytes {s : State} {a : Nat} {bytes : List Byte} (h : s.Inv) (hlow : 0x0A0 ≤ a)
    (hhigh : a + bytes.length ≤ memSize) : (copyBytes s a bytes).Inv := by
  induction bytes generalizing s a with
  | nil => exact h
  | cons b rest ih =>
    rw [List.length_cons] at hhigh
    exact ih (h.writeByte b (by omega) fun hf => by have := hf.2; omega) (by omega) (by omega)

theorem State.Inv.call {s : State} (h : s.Inv) (a p : Word) (hsp : s.sp.toNat < s.cfg.stackDepth) :
    ({ s.push a with pc := p } : State).Inv where
  memory_wf := h.memory_wf
  font_unlisted := h.font_unlisted
  sp_le := by
    have := stackDepth_le s.cfg
    show (s.sp + 1).toNat ≤ s.cfg.stackDepth
    bv_omega
  stack_tail := fun j hj => by
    have hj : s.cfg.stackDepth ≤ j := hj
    show (s.push a).stackEntry j = 0
    rw [State.push_stackEntry s a j (hsp.trans_le (stackDepth_le s.cfg)), if_neg (by omega)]
    exact h.stack_tail j hj

theorem State.Inv.popPc {s : State} (h : s.Inv) (hsp : s.sp ≠ 0) : s.popPc.Inv where
  memory_wf := h.memory_wf
  font_unlisted := h.font_unlisted
  sp_le := by
    have := h.sp_le
    have := toNat_popPc_sp hsp
    show s.popPc.sp.toNat ≤ s.cfg.stackDepth
    omega
  stack_tail := h.stack_tail

/-! ### A cycle -/

theorem State.Inv.exec {i : Instr} {s t : State} (h : s.Inv) (he : exec i s = .next t) : t.Inv := by
  cases exec_next_cases he
  case call nnn hsp => exact h.call s.pc (zextAddr nnn) hsp
  case ret hsp => exact h.popPc hsp
  case store hc _ => exact h.storeBytes hc
  all_goals exact h.congr rfl rfl rfl rfl

theorem State.Inv.step {s t : State} (h : s.Inv) (hs : step s = .next t) : t.Inv := by
  obtain ⟨-, u, hu, rfl⟩ := step_next_cases hs
  have hadv : s.advance.Inv := h.congr rfl rfl rfl rfl
  exact (hadv.exec hu).congr (by simp) (by simp) (by simp) (by simp)

/-- Settles O18: each shape that the state after an instruction can have meets the invariant, and the advance and the end of
the cycle touch nothing it speaks of. -/
theorem stepKeepsTheInvariant : Obligations.StepKeepsTheInvariant := fun _ _ h hs => h.step hs

/-! ### The host's operations (R74, R75) -/

theorem step_cfg {s t : State} (h : step s = .next t) : t.cfg = s.cfg := by
  obtain ⟨-, u, hu, rfl⟩ := step_next_cases h
  obtain ⟨hcfg, -⟩ := exec_next_kept hu
  simpa using hcfg

/-- The state after the host's `Cycle` is that of a cycle with the input given, or else the state before (R68). -/
theorem opCycle_state_cases (inp : CycleInput) (s : State) :
    step { s with inputs := inp :: s.inputs } = .next (opCycle inp s).1 ∨ (opCycle inp s).1 = s := by
  unfold opCycle
  split
  case h_1 h => exact .inl h
  all_goals exact .inr rfl

theorem copyBytes_frame (s : State) (a : Nat) (bytes : List Byte) :
    copyBytes s a bytes = { s with memory := (copyBytes s a bytes).memory } := by
  induction bytes generalizing s a with
  | nil => rfl
  | cons b rest ih => exact ih (s.writeByte a b) (a + 1)

theorem opLoadRom_of_fits {bytes : List Byte} (s : State) (h : bytes.length ≤ 3584) :
    opLoadRom bytes s = (copyBytes s 0x200 bytes, .ok) :=
  if_neg (Nat.not_lt.mpr h)

theorem opLoadRom_of_too_long {bytes : List Byte} (s : State) (h : 3584 < bytes.length) :
    opLoadRom bytes s = (s, .romTooLarge) :=
  if_pos h

theorem State.Inv.hostOp {s : State} (h : s.Inv) (op : HostOp) :
    (hostOp op s).1.Inv ∧ (hostOp op s).1.cfg = s.cfg := by
  cases op with
  | reset => exact ⟨(resetMeetsTheInvariant s.cfg).congr rfl rfl rfl rfl, rfl⟩
  | loadRom bytes =>
    show (opLoadRom bytes s).1.Inv ∧ (opLoadRom bytes s).1.cfg = s.cfg
    rcases Nat.lt_or_ge 3584 bytes.length with hlong | hfits
    · rw [opLoadRom_of_too_long s hlong]
      exact ⟨h, rfl⟩
    · rw [opLoadRom_of_fits s hfits]
      exact ⟨h.copyBytes (by decide) (show 0x200 + bytes.length ≤ 0x1000 by omega), by rw [copyBytes_frame]⟩
  | cycle inp =>
    show (opCycle inp s).1.Inv ∧ (opCycle inp s).1.cfg = s.cfg
    rcases opCycle_state_cases inp s with hs | hs
    · have hinp : ({ s with inputs := inp :: s.inputs } : State).Inv := h.congr rfl rfl rfl rfl
      have hcfg := step_cfg hs
      exact ⟨hinp.step hs, hcfg⟩
    · rw [hs]
      exact ⟨h, rfl⟩
  | writeKeys keys => exact ⟨h.congr rfl rfl rfl rfl, rfl⟩
  | readDisplay | readTimers | introspect => exact ⟨h, rfl⟩

/-- What one host operation keeps, every sequence of them keeps. -/
theorem hostRun_induction {P : State → Prop} (hop : ∀ op s, P s → P (hostOp op s).1) (ops : List HostOp) {s : State}
    (h : P s) : P (hostRun ops s) := by
  induction ops generalizing s with
  | nil => exact h
  | cons op rest ih => exact ih (hop op s h)

/-- Settles O19: each operation keeps the invariant and the parameters, so every sequence does. -/
theorem hostOperationsKeepTheInvariant : Obligations.HostOperationsKeepTheInvariant := by
  intro ops s h
  refine hostRun_induction (P := fun t => t.Inv ∧ t.cfg = s.cfg) (fun op t ht => ?_) ops ⟨h, rfl⟩
  obtain ⟨hinv, hcfg⟩ := ht.1.hostOp op
  exact ⟨hinv, hcfg.trans ht.2⟩

/-! ### The font (R44) -/

theorem State.Inv.readByte_font {s : State} (h : s.Inv) {k : Nat} (hk : k < 80) :
    s.readByte (0x050 + k) = s.cfg.font[k] :=
  (State.readByte_font h.font_unlisted ⟨by omega, by omega⟩).trans (Memory.unlisted_font _ hk)

/-- Settles O20: no store is to a byte of the font, and with none listed it reads as the parameter `FONT`. -/
theorem fontIsNeverChanged : Obligations.FontIsNeverChanged := by
  refine ⟨fun s t h a ha => step_readByte_of_not_storesAt h fun b hb => hb.1 ha, fun ops k hk => ?_⟩
  obtain ⟨hinv, hcfg⟩ := hostOperationsKeepTheInvariant ops State.reset (resetMeetsTheInvariant defaultConfig)
  rw [hinv.readByte_font hk]
  simp only [hcfg]
  rfl

end Sys2Proof.Machine
end

section
/-! The cycle around its instruction (R61 to R69), and the errors: what each instruction does in each case of its own
condition (R129). -/

namespace Sys2Proof.Machine

/-! ### The cycle -/

/-- Settles O6: the two bytes at `pc` are the word fetched. -/
theorem stepRunsTheDecodedInstruction : Obligations.StepRunsTheDecodedInstruction := by
  intro s i hf hdec
  rw [decode_cons_cons] at hdec
  have hi : decodeWord s.wordAtPc = i := congrArg Prod.fst (Except.ok.inj hdec)
  exact ⟨fun u hu => step_of_decode_of_exec_next hf hi hu, fun f h => step_of_exec_fault hf (hi.symm ▸ h)⟩

theorem State.input_congr {s t : State} (hi : t.inputs = s.inputs) (hd : t.draws = s.draws) : t.input = s.input := by
  rw [State.input, State.input, hi, hd]

theorem State.complete_draws_of_cons {s : State} {i : CycleInput} {rest : List CycleInput} (w : Word)
    (h : s.inputs = i :: rest) : (s.complete w).draws = s.draws := by
  simp [State.complete, State.nextInput, h]

/-- Settles O7: the end of the cycle is on what the instruction left, with the inputs that no instruction touches. -/
theorem timersTickAfterTheInstruction : Obligations.TimersTickAfterTheInstruction := by
  intro s u hf hu
  obtain ⟨-, -, -, hinputs, hdraws⟩ := exec_next_kept hu
  have hinput : u.input = s.input := State.input_congr hinputs hdraws
  refine ⟨u.complete s.wordAtPc, step_of_exec_next hf hu, hinput ▸ u.toNat_complete_DT _, hinput ▸ u.toNat_complete_ST _,
    u.complete_ir _, u.complete_frame _, fun i rest hq => ⟨?first, ?rest, ?draws⟩⟩
  case first => rw [State.input, hq]
  case rest => rw [State.complete_inputs, hinputs]; exact congrArg List.tail hq
  case draws => rw [State.complete_draws_of_cons _ (hinputs.trans hq)]; exact hdraws

/-- Settles O8: the two errors in their order, and the word of a fetch that passes both checks. -/
theorem fetchChecksPcInOrder : Obligations.FetchChecksPcInOrder := fun _ =>
  ⟨fun hc hodd => step_of_fetch_error (fetch_of_misaligned hc hodd),
    fun ha hm hp => step_of_fetch_error (fetch_of_outOfRange ha hm hp), fun hf => ⟨_, fetch_of_fetchable hf⟩⟩

/-! ### The bytes of a checked access -/

/-- The bytes of a checked access of `n` bytes from `I` on. -/
def State.bytesAtIndex (s : State) (n : Nat) : List Byte := ((s.indexAddrs n).map (· % 0x1000)).map s.readByte

@[simp] theorem State.length_bytesAtIndex (s : State) (n : Nat) : (s.bytesAtIndex n).length = n := by
  simp [State.bytesAtIndex]

theorem State.getElem_bytesAtIndex {s : State} {n k a : Nat} (hk : k < (s.bytesAtIndex n).length)
    (ha : checkAddr s.cfg.addrMode (s.I.toNat + k) = .ok a) : (s.bytesAtIndex n)[k] = s.readByte a := by
  obtain ⟨rfl, -⟩ := checkAddr_ok ha
  simp [State.bytesAtIndex]

/-! ### Each instruction that can raise, case by case -/

theorem exec_call_of_room {s : State} (nnn : Addr12) (h : s.sp.toNat < s.cfg.stackDepth) :
    exec (.call nnn) s = .next { s.push s.pc with pc := zextAddr nnn } :=
  if_neg (by simpa [State.stackFull] using h)

theorem exec_call_of_full {s : State} (nnn : Addr12) (h : s.cfg.stackDepth ≤ s.sp.toNat) :
    exec (.call nnn) s = .fault (.stackOverflow s.cpc) :=
  if_pos (by simpa [State.stackFull] using h)

theorem exec_drw_of_reaches {s : State} (x y : RegNum) {n : Nibble} (h : s.Reaches n.toNat) :
    exec (.drw x y n) s = .next (s.drawSprite x y (s.bytesAtIndex n.toNat)) :=
  withChecked_of_reaches _ h

theorem exec_ldB_of_reaches {s : State} (x : RegNum) (h : s.Reaches 3) :
    exec (.ldB x) s = .next (s.storeBytes (((s.indexAddrs 3).map (· % 0x1000)).zip (bcdDigits (s.reg x)))) :=
  withChecked_of_reaches _ h

theorem exec_storeRegs_of_reaches {s : State} {x : RegNum} (h : s.Reaches (x.val + 1)) :
    exec (.storeRegs x) s =
      .next (s.storeBytes (((s.indexAddrs (x.val + 1)).map (· % 0x1000)).zip (s.regsUpTo x))) :=
  withChecked_of_reaches _ h

theorem exec_loadRegs_of_reaches {s : State} {x : RegNum} (h : s.Reaches (x.val + 1)) :
    exec (.loadRegs x) s = .next (s.setRegs (s.bytesAtIndex (x.val + 1))) :=
  withChecked_of_reaches _ h

/-- Only the four instructions that access data have addresses to reach. -/
theorem exec_of_not_reaches {i : Instr} {s : State} (h : ¬ s.Reaches (dataBytes i)) :
    exec i s = .fault (.addressOutOfRange s.cpc (max s.I.toNat 0x1000)) := by
  cases i
  case drw | ldB | storeRegs | loadRegs => exact withChecked_of_not_reaches _ h
  all_goals exact absurd (.inr (.inr rfl)) h

theorem exec_ldVxK_of_some {s : State} {k : Fin 16} (x : RegNum) (h : s.firstKey = some k) :
    exec (.ldVxK x) s = .next (s.setReg x (BitVec.ofNat 8 k.val)) := by
  simp only [exec, execLdVxK, h]

theorem exec_ldVxK_of_none {s : State} (x : RegNum) (h : s.firstKey = none) :
    exec (.ldVxK x) s = .next { s with pc := s.cpc } := by
  simp only [exec, execLdVxK, h]

theorem exec_of_completes {i : Instr} {s : State} (h : Completes i s) : ∃ t, exec i s = .next t := by
  cases i
  case call nnn => exact ⟨_, exec_call_of_room nnn h⟩
  case ret => exact ⟨_, exec_ret_of_nonempty h⟩
  case drw | ldB | storeRegs | loadRegs => exact ⟨_, withChecked_of_reaches _ h⟩
  case ldVxK x =>
    cases hk : s.firstKey with
    | some k => exact ⟨_, exec_ldVxK_of_some x hk⟩
    | none => exact ⟨_, exec_ldVxK_of_none x hk⟩
  all_goals exact ⟨_, rfl⟩

/-- An instruction that does not complete raises the one error of its own. -/
theorem exec_of_not_completes {i : Instr} {s : State} (h : ¬ Completes i s) :
    ((∃ nnn, i = .call nnn) ∧ exec i s = .fault (.stackOverflow s.cpc)) ∨
    (i = .ret ∧ exec i s = .fault (.stackUnderflow s.cpc)) ∨
    (dataBytes i ≠ 0 ∧ exec i s = .fault (.addressOutOfRange s.cpc (max s.I.toNat 0x1000))) := by
  cases i
  case call nnn => exact .inl ⟨⟨nnn, rfl⟩, exec_call_of_full nnn (Nat.not_lt.mp h)⟩
  case ret => exact .inr (.inl ⟨rfl, exec_ret_of_empty (not_not.mp h)⟩)
  all_goals exact .inr (.inr ⟨fun h0 => h (.inr (.inr h0)), exec_of_not_reaches h⟩)

theorem completes_of_exec_next {i : Instr} {s t : State} (h : exec i s = .next t) : Completes i s := by
  by_contra hc
  rcases exec_of_not_completes hc with ⟨-, he⟩ | ⟨-, he⟩ | ⟨-, he⟩ <;> cases he.symm.trans h

/-! ### Completion and errors -/

/-- Settles O12: an instruction completes under its condition, and otherwise raises its error. -/
theorem instructionCompletesExactlyWhen : Obligations.InstructionCompletesExactlyWhen := by
  refine fun i s => ⟨⟨fun ⟨_, h⟩ => completes_of_exec_next h, exec_of_completes⟩, fun r hr => ?_⟩
  by_cases hc : Completes i s
  · obtain ⟨t, ht⟩ := exec_of_completes hc
    cases ht.symm.trans hr
  · rcases exec_of_not_completes hc with ⟨-, he⟩ | ⟨-, he⟩ | ⟨-, he⟩ <;> cases he.symm.trans hr

/-- Settles O11: the inversion of the cycle one way, and the fetch and the instruction run the other. -/
theorem cycleCompletesExactlyWhen : Obligations.CycleCompletesExactlyWhen := by
  intro s
  constructor
  · rintro ⟨t, ht⟩
    obtain ⟨hf, u, hu, -⟩ := step_next_cases ht
    exact ⟨hf, completes_of_exec_next hu⟩
  · rintro ⟨hf, hc⟩
    obtain ⟨u, hu⟩ := exec_of_completes hc
    exact ⟨_, step_of_exec_next hf hu⟩

/-- Settles O13: a fault is the one error of the instruction. -/
theorem instructionFaultsOnlyAsListed : Obligations.InstructionFaultsOnlyAsListed := by
  intro i s f hf
  have hc : ¬ Completes i s := fun hc => by
    obtain ⟨t, ht⟩ := exec_of_completes hc
    cases ht.symm.trans hf
  rcases exec_of_not_completes hc with ⟨hi, he⟩ | ⟨hi, he⟩ | ⟨hi, he⟩ <;> cases he.symm.trans hf
  · exact .inl ⟨hi, rfl⟩
  · exact .inr (.inl ⟨hi, rfl⟩)
  · exact .inr (.inr ⟨hi, _, rfl⟩)

/-- Settles O14: the lowest failing address is `I` itself or the first past memory, so it is the `I + k` given. -/
theorem dataAccessRaisesAtTheLowestAddress : Obligations.DataAccessRaisesAtTheLowestAddress := by
  intro i s k hmode hk hpast hlower
  have hreach : ¬ s.Reaches (dataBytes i) := by
    rintro (h | h | h)
    · cases hmode.symm.trans h
    · omega
    · omega
  have hlowest : max s.I.toNat 0x1000 = s.I.toNat + k := by
    rcases Nat.eq_zero_or_pos k with rfl | hpos
    · omega
    · have := hlower (k - 1) (by omega)
      omega
  rw [exec_of_not_reaches hreach, hlowest]
  rfl

end Sys2Proof.Machine
end

section
/-! Who writes each field (R14, R28, R40): from the shapes that the state after an instruction can have. -/

namespace Sys2Proof.Machine

/-! ### Writers -/

theorem mayMovePc_of_effect {i : Instr} {s t : State} (h : Effect s i t) (hne : t.pc ≠ s.pc) : MayMovePc i := by
  cases h
  case pc hi => rcases hi with ⟨a, rfl | rfl⟩ | ⟨x, kk, rfl | rfl⟩ | ⟨x, y, rfl | rfl⟩ | ⟨x, rfl | rfl | rfl⟩ <;> trivial
  case call | ret => trivial
  case store => exact absurd (State.storeBytes_pc ..) hne
  all_goals exact absurd rfl hne

/-- Settles O22: each field is followed through the shapes. -/
theorem specialRegistersHaveTheirWriters : Obligations.SpecialRegistersHaveTheirWriters := by
  intro i s t h
  have heff := exec_next_cases h
  refine ⟨?I, ?sp, ?stack, ?DT, ?ST, mayMovePc_of_effect heff⟩
  case I =>
    intro hne
    cases heff
    case index hi => exact hi.imp_right fun ⟨x, hx⟩ => ⟨x, hx⟩
    all_goals simp at hne
  case sp => intro hne; cases heff <;> simp at hne ⊢
  case stack => intro hne; cases heff <;> simp at hne ⊢
  case DT => intro hne; cases heff <;> simp at hne ⊢
  case ST => intro hne; cases heff <;> simp at hne ⊢

theorem storesAt_writer {i : Instr} {s : State} {a : Nat} {b : Byte} (h : StoresAt i s a b) :
    (∃ x, i = .ldB x ∨ i = .storeRegs x) ∧ a < 0x1000 ∧ ¬ InFont a := by
  obtain ⟨hf, h⟩ := h
  cases i <;> try exact h.elim
  case ldB x =>
    obtain ⟨k, -, ha, -⟩ := h
    obtain ⟨rfl, -⟩ := checkAddr_ok ha
    exact ⟨⟨x, .inl rfl⟩, Nat.mod_lt _ (by decide), hf⟩
  case storeRegs x =>
    obtain ⟨r, -, ha, -⟩ := h
    obtain ⟨rfl, -⟩ := checkAddr_ok ha
    exact ⟨⟨x, .inr rfl⟩, Nat.mod_lt _ (by decide), hf⟩

/-- Settles O23: a byte that changed is one of `StoresAt`. -/
theorem displayMemoryAndKeysHaveTheirWriters : Obligations.DisplayMemoryAndKeysHaveTheirWriters := by
  intro i s t h
  obtain ⟨hcfg, hkey, hir, hinputs, hdraws⟩ := exec_next_kept h
  refine ⟨fun hne => ?display, fun a hne => ?memory, hkey, hcfg, hir, hinputs, hdraws⟩
  case display => cases exec_next_cases h <;> simp at hne ⊢
  case memory =>
    by_contra hnone
    exact hne (exec_readByte_of_not_storesAt h fun b hb => hnone (storesAt_writer hb))

/-! ### Registers (R14) -/

theorem State.eq_of_reg_setReg_ne {s : State} {x r : RegNum} {v : Byte} (h : (s.setReg x v).reg r ≠ s.reg r) : r = x := by
  by_contra hne
  exact h (s.reg_setReg_ne v hne)

theorem State.eq_of_reg_setRegThenFlag_ne {s : State} {x r : RegNum} {v : Byte} {f : Bool}
    (h : (s.setRegThenFlag x v f).reg r ≠ s.reg r) : r = x ∨ r = VF := by
  by_contra hne
  rw [not_or] at hne
  exact h (s.reg_setRegThenFlag_ne v f hne.1 hne.2)

/-- A flag is 0 or 1. -/
theorem flag_eq_zero_or_one (f : Bool) : (if f then 1 else 0 : Byte) = 0 ∨ (if f then 1 else 0 : Byte) = 1 := by
  cases f <;> simp

theorem State.le_of_reg_setRegs_ne {s : State} {vals : List Byte} {x r : RegNum} (hlen : vals.length = x.val + 1)
    (h : (s.setRegs vals).reg r ≠ s.reg r) : r ≤ x := by
  by_contra hlt
  have hnone : vals[r.val]? = none := List.getElem?_eq_none (by rw [Fin.le_def] at hlt; omega)
  exact h (by simp [hnone])

/-- The instructions that write no register. -/
theorem reg_eq_of_mayWrite_none {i : Instr} {s t : State} (h : Effect s i t) (hi : ∀ r, ¬ MayWrite i r) (r : RegNum) :
    t.reg r = s.reg r := by
  cases h
  case regs hi' =>
    rcases hi' with ⟨x, kk, rfl | rfl | rfl⟩ |
      ⟨x, y, rfl | rfl | rfl | rfl | rfl | rfl | rfl | rfl | rfl⟩ | ⟨x, rfl | rfl | rfl⟩ <;>
    exact absurd (by simp [MayWrite]) (hi x)
  case draw => exact absurd rfl (hi VF)
  case store => exact State.storeBytes_reg ..
  all_goals rfl

/-- Settles O24: by the one update each instruction is. -/
theorem registersAreWrittenOnlyAsDestinationOrFlag : Obligations.RegistersAreWrittenOnlyAsDestinationOrFlag := by
  intro i s t h
  have heff := exec_next_cases h
  cases i
  case ldImm | addImm | rnd | ldReg | orReg | andReg | xorReg | ldVxDt =>
    cases h
    exact ⟨fun r hr => State.eq_of_reg_setReg_ne hr, False.elim⟩
  case addReg | sub | shr | subn | shl =>
    cases h
    exact ⟨fun r hr => State.eq_of_reg_setRegThenFlag_ne hr, fun _ => by
      rw [State.reg_setRegThenFlag_flag]; exact flag_eq_zero_or_one _⟩
  case drw x y n =>
    cases (exec_drw_of_reaches x y (completes_of_exec_next h)).symm.trans h
    refine ⟨fun r hr => ?_, fun _ => ?_⟩
    · by_contra hne
      exact hr (s.drawSprite_reg_ne _ _ _ hne)
    · rw [State.drawSprite_flag]; exact flag_eq_zero_or_one _
  case ldVxK x =>
    cases hk : s.firstKey with
    | some k =>
      cases (exec_ldVxK_of_some x hk).symm.trans h
      exact ⟨fun r hr => State.eq_of_reg_setReg_ne hr, False.elim⟩
    | none =>
      cases (exec_ldVxK_of_none x hk).symm.trans h
      exact ⟨fun r hr => absurd rfl hr, False.elim⟩
  case loadRegs x =>
    cases (exec_loadRegs_of_reaches (completes_of_exec_next h)).symm.trans h
    exact ⟨fun r hr => State.le_of_reg_setRegs_ne (by simp) hr, False.elim⟩
  all_goals exact ⟨fun r hr => absurd (reg_eq_of_mayWrite_none heff (fun _ => id) r) hr, False.elim⟩

end Sys2Proof.Machine
end

section
/-! What no instruction reads (R23, R24, R31, R62): the inputs of the cycle but for RND, `ir`, the sound timer, and the stack
but for CALL and RET. Any change to those fields passes through the other instructions. -/

namespace Sys2Proof.Machine

/-- The state with the fields changed that most instructions neither read nor write. -/
def State.mapUnread (k : Vector Word 16 → Vector Word 16) (v : Byte → Byte) (w : Word → Word)
    (q : List CycleInput → List CycleInput) (d : Nat → Nat) (s : State) : State :=
  { s with stack := k s.stack, ST := v s.ST, ir := w s.ir, inputs := q s.inputs, draws := d s.draws }

/-- The four instructions that read or write a field of `State.mapUnread`. -/
def TouchesUnread : Instr → Prop
  | .call _ | .ret | .rnd _ _ | .ldStVx _ => True
  | _ => False

section
variable (k : Vector Word 16 → Vector Word 16) (v : Byte → Byte) (w : Word → Word)
  (q : List CycleInput → List CycleInput) (d : Nat → Nat)

theorem State.storeByte_mapUnread (s : State) (a : Nat) (b : Byte) :
    (s.mapUnread k v w q d).storeByte a b = (s.storeByte a b).mapUnread k v w q d := by
  unfold State.storeByte
  split <;> rfl

theorem State.storeBytes_mapUnread (s : State) (cells : List (Nat × Byte)) :
    (s.mapUnread k v w q d).storeBytes cells = (s.storeBytes cells).mapUnread k v w q d := by
  induction cells generalizing s with
  | nil => rfl
  | cons p rest ih =>
    obtain ⟨a, b⟩ := p
    rw [State.storeBytes, State.storeBytes, State.storeByte_mapUnread, ih]

/-- A checked access, on a state with the same parameters and `pc`, checks alike. -/
theorem withChecked_mapNext {s t : State} {f : State → State} {as : List Nat} {g g' : List Nat → Result}
    (hcfg : t.cfg = s.cfg) (hpc : t.pc = s.pc) (hg : ∀ cs, g' cs = mapNext f (g cs)) :
    withChecked t as g' = mapNext f (withChecked s as g) := by
  unfold withChecked State.cpc
  rw [hcfg, hpc]
  split
  · rfl
  · exact hg _

theorem exec_mapUnread {i : Instr} (s : State) (hi : ¬ TouchesUnread i) :
    exec i (s.mapUnread k v w q d) = mapNext (State.mapUnread k v w q d) (exec i s) := by
  cases i
  case call | ret | rnd | ldStVx => exact absurd trivial hi
  case ldVxK x =>
    cases hk : s.firstKey with
    | some n => rw [exec_ldVxK_of_some x hk]; exact exec_ldVxK_of_some x hk
    | none => rw [exec_ldVxK_of_none x hk]; exact exec_ldVxK_of_none x hk
  case drw | loadRegs => exact withChecked_mapNext rfl rfl fun _ => rfl
  case ldB | storeRegs =>
    exact withChecked_mapNext rfl rfl fun _ => congrArg Host.Outcome.next (State.storeBytes_mapUnread ..)
  all_goals rfl

theorem exec_call_mapUnread (s : State) (a : Addr12) :
    exec (.call a) (s.mapUnread id v w q d) = mapNext (State.mapUnread id v w q d) (exec (.call a) s) := by
  rcases Nat.lt_or_ge s.sp.toNat s.cfg.stackDepth with h | h
  · rw [exec_call_of_room a h]; exact exec_call_of_room a h
  · rw [exec_call_of_full a h]; exact exec_call_of_full a h

theorem exec_ret_mapUnread (s : State) :
    exec .ret (s.mapUnread id v w q d) = mapNext (State.mapUnread id v w q d) (exec .ret s) := by
  by_cases h : s.sp = 0
  · rw [exec_ret_of_empty h]; exact exec_ret_of_empty h
  · rw [exec_ret_of_nonempty h]; exact exec_ret_of_nonempty h

end

/-- Settles O25: CALL, RET and `Fx18` touch no input either. -/
theorem onlyRndReadsTheInputs : Obligations.OnlyRndReadsTheInputs := by
  intro i s q d hi
  cases i
  case rnd x kk => exact absurd rfl (hi x kk)
  case call a => exact exec_call_mapUnread id id (fun _ => q) (fun _ => d) s a
  case ret => exact exec_ret_mapUnread id id (fun _ => q) (fun _ => d) s
  case ldStVx => rfl
  all_goals exact exec_mapUnread id id id (fun _ => q) (fun _ => d) s id

/-- Settles O26: RND reads only the inputs, CALL and RET only the stack, and `Fx18` writes the sound timer without reading
it. -/
theorem irAndSoundTimerAreNotRead : Obligations.IrAndSoundTimerAreNotRead := by
  intro i s w v
  cases i
  case call a => exact exec_call_mapUnread (fun _ => v) (fun _ => w) id id s a
  case ret => exact exec_ret_mapUnread (fun _ => v) (fun _ => w) id id s
  case rnd | ldStVx => rfl
  all_goals exact exec_mapUnread id (fun _ => v) (fun _ => w) id id s id

/-! ### The stack (R23) -/

/-- CALL and RET alone read the stack. -/
theorem exec_withStack {i : Instr} (s : State) (k : Vector Word 16) (hc : ∀ a, i ≠ .call a) (hr : i ≠ .ret) :
    exec i { s with stack := k } = mapNext (fun t => { t with stack := k }) (exec i s) := by
  cases i
  case call a => exact absurd rfl (hc a)
  case ret => exact absurd rfl hr
  case rnd | ldStVx => rfl
  all_goals exact exec_mapUnread (fun _ => k) id id id id s id

/-- What O27 says of one instruction and two states that differ in the stack. -/
def SameBelowSp (i : Instr) (s : State) (k : Vector Word 16) : Prop :=
  (∀ f, exec i s = .fault f → exec i { s with stack := k } = .fault f) ∧
  (∀ t, exec i s = .next t → ∃ u, exec i { s with stack := k } = .next u ∧ u = { t with stack := u.stack } ∧
    ∀ j < t.sp.toNat, u.stackEntry j = t.stackEntry j)

theorem sameBelowSp_of_fault {i : Instr} {s : State} {k : Vector Word 16} {f : Fault} (h : exec i s = .fault f)
    (hk : exec i { s with stack := k } = .fault f) : SameBelowSp i s k :=
  ⟨fun _ hf => hk.trans (h.symm.trans hf), fun _ ht => nomatch h.symm.trans ht⟩

theorem sameBelowSp_of_next {i : Instr} {s t u : State} {k : Vector Word 16} (h : exec i s = .next t)
    (hk : exec i { s with stack := k } = .next u) (hu : u = { t with stack := u.stack })
    (hj : ∀ j < t.sp.toNat, u.stackEntry j = t.stackEntry j) : SameBelowSp i s k := by
  constructor
  · intro f hf
    cases h.symm.trans hf
  intro t' ht
  cases h.symm.trans ht
  exact ⟨u, hk, hu, hj⟩

section
variable {s : State} {k : Vector Word 16}
  (hk : ∀ j < s.sp.toNat, ({ s with stack := k } : State).stackEntry j = s.stackEntry j)
include hk

theorem sameBelowSp_call (a : Addr12) : SameBelowSp (.call a) s k := by
  rcases Nat.lt_or_ge s.sp.toNat s.cfg.stackDepth with h | h
  · have h16 := h.trans_le (stackDepth_le s.cfg)
    refine sameBelowSp_of_next (exec_call_of_room a h) (exec_call_of_room a h) rfl fun j hj => ?_
    change j < (s.sp + 1).toNat at hj
    show (State.push { s with stack := k } s.pc).stackEntry j = (s.push s.pc).stackEntry j
    rw [State.push_stackEntry s s.pc j h16, State.push_stackEntry { s with stack := k } s.pc j h16]
    split
    · rfl
    · exact hk j (by bv_omega)
  · exact sameBelowSp_of_fault (exec_call_of_full a h) (exec_call_of_full a h)

theorem sameBelowSp_ret : SameBelowSp .ret s k := by
  by_cases h : s.sp = 0
  · exact sameBelowSp_of_fault (exec_ret_of_empty h) (exec_ret_of_empty h)
  · have hsp : s.popPc.sp.toNat < s.sp.toNat := by have := toNat_popPc_sp h; omega
    refine sameBelowSp_of_next (exec_ret_of_nonempty h) (exec_ret_of_nonempty h) ?_ fun j hj => hk j (hj.trans hsp)
    rw [show State.popPc { s with stack := k } =
      { s.popPc with pc := ({ s with stack := k } : State).stackEntry s.popPc.sp.toNat, stack := k } from rfl, hk _ hsp]
    rfl

theorem sameBelowSp_of_not_stack {i : Instr} (hc : ∀ a, i ≠ .call a) (hr : i ≠ .ret) : SameBelowSp i s k := by
  have hcomm := exec_withStack s k hc hr
  cases he : exec i s with
  | fault f => exact sameBelowSp_of_fault he (by rw [hcomm, he]; rfl)
  | refused r => exact absurd he ((instructionCompletesExactlyWhen i s).2 r)
  | next t =>
    refine sameBelowSp_of_next he (by rw [hcomm, he]; rfl) rfl fun j hj => ?_
    obtain ⟨-, sp_writer, stack_writer, -⟩ := specialRegistersHaveTheirWriters i s t he
    have hsp : t.sp = s.sp := by
      by_contra hne
      exact (sp_writer hne).elim hr fun ⟨a, ha⟩ => hc a ha
    have hstack : t.stack = s.stack := by
      by_contra hne
      obtain ⟨a, ha⟩ := stack_writer hne
      exact hc a ha
    calc ({ t with stack := k } : State).stackEntry j = s.stackEntry j := hk j (hsp ▸ hj)
      _ = t.stackEntry j := by rw [State.stackEntry, State.stackEntry, hstack]

end

/-- Settles O27: CALL writes its entry in both states, RET reads one below `sp`, and the others leave `sp` and the stack. -/
theorem staleStackEntriesAreNotRead : Obligations.StaleStackEntriesAreNotRead := by
  intro i s k _ hk
  by_cases hc : ∃ a, i = .call a
  · obtain ⟨a, rfl⟩ := hc
    exact sameBelowSp_call hk a
  by_cases hr : i = .ret
  · subst hr
    exact sameBelowSp_ret hk
  exact sameBelowSp_of_not_stack hk (not_exists.mp hc) hr

/-! ### Errors and the inputs (R68, R128) -/

/-- RND raises nothing, and no other instruction reads the inputs. -/
theorem exec_fault_of_inputs {i : Instr} {s : State} {f : Fault} (q : List CycleInput) (h : exec i s = .fault f) :
    exec i { s with inputs := q } = .fault f := by
  by_cases hi : ∃ x kk, i = .rnd x kk
  · obtain ⟨x, kk, rfl⟩ := hi
    cases h
  · have hother := onlyRndReadsTheInputs i s q s.draws (by simpa using hi)
    rw [h] at hother
    exact hother

theorem step_fault_cases {s : State} {f : Fault} (h : step s = .fault f) :
    s.fetch = .error f ∨ s.Fetchable ∧ exec (decodeWord s.wordAtPc) s.advance = .fault f := by
  simp only [step] at h
  split at h
  · rename_i e he
    cases h
    exact .inl he
  · rename_i w hw
    obtain ⟨hf, rfl⟩ := fetch_ok hw
    split at h <;> cases h
    exact .inr ⟨hf, ‹_›⟩

theorem step_fault_of_inputs {s : State} {f : Fault} (q : List CycleInput) (h : step s = .fault f) :
    step { s with inputs := q } = .fault f := by
  rcases step_fault_cases h with hfetch | ⟨hf, he⟩
  · exact step_of_fetch_error hfetch
  · exact step_of_exec_fault (s := { s with inputs := q }) hf (exec_fault_of_inputs q he)

theorem opCycle_error {inp : CycleInput} {s : State} {f : Fault} (h : (opCycle inp s).2 = .error f) :
    step { s with inputs := inp :: s.inputs } = .fault f ∧ (opCycle inp s).1 = s := by
  unfold opCycle at h ⊢
  split at h <;> cases h
  exact ⟨‹_›, rfl⟩

/-- Settles O15: the failing step answers alike under any inputs, and an error of the cycle is that of the step. -/
theorem errorCycleCommitsNothing : Obligations.ErrorCycleCommitsNothing := by
  intro s inp f h
  obtain ⟨hstep, hstate⟩ := opCycle_error h
  refine ⟨hstate, fun inp' => ?_⟩
  have hagain := step_fault_of_inputs (inp' :: s.inputs) hstep
  rw [opCycle_of_step_fault hagain]

end Sys2Proof.Machine
end

section
/-! CALL and the return to it, and the jump by V0 (R86, R91). -/

namespace Sys2Proof.Machine

theorem exec_jpV0 (nnn : Addr12) (s : State) :
    exec (.jpV0 nnn) s = .next { s with pc := zextAddr nnn + (s.reg 0).setWidth 16 } := rfl

/-- Settles O29: a 12-bit address plus a byte is below 65536. -/
theorem jumpV0GoesToTheSum : Obligations.JumpV0GoesToTheSum := by
  intro s nnn
  refine setsPc_of_exec (exec_jpV0 nnn s) ?_
  have hn := nnn.isLt
  have hv := (s.reg 0).isLt
  rw [toNat_add_setWidth_byte, toNat_zextAddr, Nat.mod_eq_of_lt (by omega)]

/-- `sp` is at most 16 then, so its eight bits do not wrap. -/
theorem toNat_push_sp {s : State} (a : Word) (h : s.sp.toNat < s.cfg.stackDepth) :
    (s.push a).sp.toNat = s.sp.toNat + 1 := by
  have := stackDepth_le s.cfg
  rw [State.push_sp]
  bv_omega

/-- Settles O30: with room the entry at the old `sp` is the one written. -/
theorem callPushesTheReturnAddress : Obligations.CallPushesTheReturnAddress := by
  refine fun s nnn => ⟨fun h => ?room, fun h => exec_call_of_full nnn h.ge⟩
  have hentry : ∀ j, (s.push s.pc).stackEntry j = if j = s.sp.toNat then s.pc else s.stackEntry j :=
    fun j => s.push_stackEntry s.pc j (h.trans_le (stackDepth_le s.cfg))
  exact ⟨_, exec_call_of_room nnn h, toNat_zextAddr nnn, toNat_push_sp s.pc h, (hentry _).trans (if_pos rfl),
    fun j hj => (hentry j).trans (if_neg hj), rfl, fun _ => rfl⟩

/-- Popping what was just pushed gives the address back and leaves `sp` where it was. -/
theorem popPc_push {s : State} (a p : Word) (h : s.sp.toNat < 16) :
    State.popPc { s.push a with pc := p } = { s with pc := a, stack := (s.push a).stack } := by
  have hsp : s.sp + 1 - 1 = s.sp := by bv_omega
  have hentry : (s.push a).stackEntry (s.sp + 1 - 1).toNat = a := by rw [hsp, s.push_stackEntry a _ h, if_pos rfl]
  rw [show State.popPc { s.push a with pc := p } =
    { s.push a with pc := (s.push a).stackEntry (s.sp + 1 - 1).toNat, sp := s.sp + 1 - 1 } from rfl, hentry, hsp]
  rfl

/-- Settles O32: the entry CALL pushed is the one RET pops. -/
theorem returnAfterCallRestoresPc : Obligations.ReturnAfterCallRestoresPc := by
  intro s t nnn q h
  have hroom : s.sp.toNat < s.cfg.stackDepth := completes_of_exec_next h
  have h16 := hroom.trans_le (stackDepth_le s.cfg)
  cases (exec_call_of_room nnn hroom).symm.trans h
  have hsp : s.sp + 1 ≠ 0 := by bv_omega
  refine ⟨_, exec_ret_of_nonempty hsp, ?_, fun j hj => ?_⟩
  · exact popPc_push s.pc q h16
  · exact (s.push_stackEntry s.pc j h16).trans (if_neg hj)

end Sys2Proof.Machine
end

section
/-! The instructions that write a flag (R100 to R104), and RND (R105). -/

namespace Sys2Proof.Machine

/-- An instruction whose whole effect is `setRegThenFlag` ends with the flag in VF, also when VF is the destination. -/
theorem setsRegAndFlag_of_exec {i : Instr} {s : State} {x : RegNum} {v : Byte} {f : Bool} {n : Nat} {P : Prop}
    (he : exec i s = .next (s.setRegThenFlag x v f)) (hv : v.toNat = n) (hf : f = true ↔ P) :
    SetsRegAndFlag i s x n P := by
  refine ⟨_, he, fun hp => ?_, fun hp => ?_, fun hx => ?_, fun r hr hrf => s.reg_setRegThenFlag_ne v f hr hrf, rfl,
    s.setRegThenFlag_readByte x v f⟩
  · rw [State.reg_setRegThenFlag_flag, if_pos (hf.mpr hp)]
  · rw [State.reg_setRegThenFlag_flag, if_neg (mt hf.mp hp)]
  · rw [State.reg_setRegThenFlag_result _ _ _ hx, hv]

theorem carryFlag_iff (a b : Byte) : carryFlag a b = true ↔ 255 < a.toNat + b.toNat := decide_eq_true_iff

theorem noBorrowFlag_iff (a b : Byte) : noBorrowFlag a b = true ↔ b.toNat ≤ a.toNat := decide_eq_true_iff

theorem lowBitFlag_iff (a : Byte) : lowBitFlag a = true ↔ a.toNat % 2 = 1 := by
  simp [lowBitFlag, BitVec.getLsbD, Nat.testBit_zero]

/-- The top bit of a byte is the half of its range above 127. -/
theorem highBitFlag_iff (a : Byte) : highBitFlag a = true ↔ 128 ≤ a.toNat :=
  (BitVec.msb_eq_true_iff_two_mul_ge (x := a)).trans (by omega)

/-- Settles O35: each is one `setRegThenFlag`, of the truncated result and the flag of the old operands. -/
theorem addAndSubtractSetResultAndFlag : Obligations.AddAndSubtractSetResultAndFlag := fun _ _ _ =>
  ⟨setsRegAndFlag_of_exec rfl (toNat_trunc8 _) (carryFlag_iff _ _),
    setsRegAndFlag_of_exec rfl (toNat_trunc8 _) (noBorrowFlag_iff _ _),
    setsRegAndFlag_of_exec rfl (toNat_trunc8 _) (noBorrowFlag_iff _ _)⟩

/-- Settles O36: a shift by one halves, or doubles modulo 256. -/
theorem shiftsSetResultAndFlag : Obligations.ShiftsSetResultAndFlag := by
  refine fun s x y => ⟨setsRegAndFlag_of_exec rfl ?half (lowBitFlag_iff _),
    setsRegAndFlag_of_exec rfl ?double (highBitFlag_iff _)⟩
  case half => rw [BitVec.toNat_ushiftRight, Nat.shiftRight_eq_div_pow, pow_one]
  case double => rw [BitVec.toNat_shiftLeft, Nat.shiftLeft_eq, pow_one, Nat.mul_comm]

theorem exec_rnd (x : RegNum) (kk : Byte) (s : State) :
    exec (.rnd x kk) s = .next (s.setReg x (s.input.rnd &&& kk)) := rfl

/-- Settles O37: the host's byte is the head of the queue, and nothing is said of any byte. -/
theorem rndMasksTheRandomByte : Obligations.RndMasksTheRandomByte := fun s x kk =>
  ⟨⟨_, setsReg_of_exec (exec_rnd x kk s), fun _ _ => BitVec.getLsbD_and⟩,
    fun r tick rest => ⟨r &&& kk, setsReg_of_exec (exec_rnd x kk { s with inputs := ⟨r, tick⟩ :: rest }),
      fun _ _ => BitVec.getLsbD_and⟩⟩

end Sys2Proof.Machine
end

section
/-! The keys (R118 to R122): the two skips, the wait for a key, and how long it lasts (R148). -/

namespace Sys2Proof.Machine

theorem exec_skp (x : RegNum) (s : State) :
    exec (.skp x) s = .next (s.skipIf (s.keyPressed (keyIndex (s.reg x)))) := rfl

theorem exec_sknp (x : RegNum) (s : State) :
    exec (.sknp x) s = .next (s.skipIf (!s.keyPressed (keyIndex (s.reg x)))) := rfl

/-- Settles O48: the low nibble is the remainder by 16. -/
theorem keySkipsTestTheLowNibble : Obligations.KeySkipsTestTheLowNibble := by
  intro s x k hk
  have hindex : keyIndex (s.reg x) = k := Fin.ext hk.symm
  refine ⟨setsPc_of_skipIf (exec_skp x s) ?_, setsPc_of_skipIf (exec_sknp x s) ?_⟩
  · rw [hindex]
  · rw [hindex, Bool.not_eq_true']

theorem State.firstKey_eq_some {s : State} {k : Fin 16} (hk : s.keyPressed k = true)
    (hlow : ∀ j < k, s.keyPressed j = false) : s.firstKey = some k := by
  refine List.find?_eq_some_iff_getElem.mpr ⟨hk, k.val, by simp, by simp, fun j hj => ?_⟩
  rw [List.getElem_finRange, hlow _ hj]
  rfl

theorem State.firstKey_eq_none {s : State} (h : ∀ k, s.keyPressed k = false) : s.firstKey = none :=
  List.find?_eq_none.mpr fun k _ => by simp [h k]

/-- Settles O49: the search for a pressed key goes upwards from key 0. -/
theorem keyWaitTakesTheLowestKey : Obligations.KeyWaitTakesTheLowestKey := by
  refine fun s x => ⟨fun k hk hlow => ?pressed, fun hnone => ?none⟩
  case pressed =>
    refine ⟨_, setsReg_of_exec (exec_ldVxK_of_some x (State.firstKey_eq_some hk hlow)), ?_⟩
    rw [BitVec.toNat_ofNat, Nat.mod_eq_of_lt (by omega)]
  case none => exact setsPc_of_exec (exec_ldVxK_of_none x (State.firstKey_eq_none hnone)) rfl

/-! ### The wait (R148) -/

theorem run_succ_of_step_next {M : Host.Core} {s t : M.State} (n : Nat) (h : M.step s = .next t) :
    M.run (n + 1) s = M.run n t := by
  rw [Host.Core.run, h]

/-- The cycle of the key wait with no key pressed: the advance is undone, so it is the end of a cycle alone. -/
theorem step_ldVxK_of_no_key {s : State} {x : RegNum} (hf : s.Fetchable) (hw : decodeWord s.wordAtPc = .ldVxK x)
    (hk : ∀ k, s.keyPressed k = false) : step s = .next (s.complete s.wordAtPc) := by
  have hnone : s.advance.firstKey = none := State.firstKey_eq_none hk
  have he := exec_ldVxK_of_none x hnone
  rw [State.advance_cpc] at he
  exact step_of_decode_of_exec_next hf hw he

theorem State.fetchable_complete {s : State} (w : Word) : (s.complete w).Fetchable ↔ s.Fetchable := by
  simp [State.Fetchable]

theorem State.wordAtPc_complete (s : State) (w : Word) : (s.complete w).wordAtPc = s.wordAtPc := by
  simp [State.wordAtPc]

theorem State.toNat_complete_DT_le (s : State) (w : Word) : (s.complete w).DT.toNat ≤ s.DT.toNat := by
  rw [State.toNat_complete_DT]; split <;> omega

theorem State.toNat_complete_ST_le (s : State) (w : Word) : (s.complete w).ST.toNat ≤ s.ST.toNat := by
  rw [State.toNat_complete_ST]; split <;> omega

/-- If the next `n + 1` supplied inputs all tick, the coming cycle ticks, and so do the `n` after it. -/
theorem ticks_of_ticks_succ {s : State} {n : Nat} (w : Word) (hlen : n + 1 ≤ s.inputs.length)
    (htick : ∀ i ∈ s.inputs.take (n + 1), i.tick = true) :
    s.input.tick = true ∧ n ≤ (s.complete w).inputs.length ∧ ∀ i ∈ (s.complete w).inputs.take n, i.tick = true := by
  rw [State.complete_inputs, State.input]
  cases hq : s.inputs with
  | nil => simp [hq] at hlen
  | cons i rest =>
    rw [hq, List.take_succ_cons, List.forall_mem_cons] at htick
    exact ⟨htick.1, by simpa [hq] using hlen, htick.2⟩

/-- Settles O50: after one cycle of the wait the state still waits, and only its timers have moved. -/
theorem keyWaitLastsUntilAKeyIsPressed : Obligations.KeyWaitLastsUntilAKeyIsPressed := by
  intro n
  induction n with
  | zero => exact fun s x _ _ _ => ⟨s, rfl, rfl, le_rfl, le_rfl, fun _ _ => ⟨rfl, rfl⟩⟩
  | succ n ih =>
    intro s x hf hw hk
    obtain ⟨t, hrun, hframe, hDT, hST, hticks⟩ := ih (s.complete s.wordAtPc) x ((State.fetchable_complete _).mpr hf)
      (by rwa [State.wordAtPc_complete]) (by simpa using hk)
    refine ⟨t, (run_succ_of_step_next (M := core) n (step_ldVxK_of_no_key hf hw hk)).trans hrun, hframe.trans ?frame,
      hDT.trans (s.toNat_complete_DT_le _), hST.trans (s.toNat_complete_ST_le _), fun hlen htick => ?ticks⟩
    case frame => rw [s.complete_frame s.wordAtPc]
    case ticks =>
      obtain ⟨hnow, hlen', htick'⟩ := ticks_of_ticks_succ s.wordAtPc hlen htick
      obtain ⟨h1, h2⟩ := hticks hlen' htick'
      rw [State.toNat_complete_DT, if_pos hnow] at h1
      rw [State.toNat_complete_ST, if_pos hnow] at h2
      omega

end Sys2Proof.Machine
end

section
/-! The glyph address, the stores and the load (R108 to R111), and what the fetch sees of a store (R49). -/

namespace Sys2Proof.Machine

/-! ### The glyph (R108) -/

theorem exec_ldF (x : RegNum) (s : State) : exec (.ldF x) s = .next { s with I := glyphAddr (s.reg x) } := rfl

/-- The largest is `0x050 + 5 * 255`, so the word loses nothing. -/
theorem toNat_glyphAddr (v : Byte) : (glyphAddr v).toNat = 0x050 + 5 * v.toNat := by
  have := v.isLt
  rw [glyphAddr, BitVec.toNat_ofNat, Nat.mod_eq_of_lt (by unfold fontBase; omega)]
  rfl

/-- Settles O39: the glyph of the digit `d` is five bytes of the font from `5 * d` on, which the invariant keeps. -/
theorem glyphAddressHoldsTheGlyph : Obligations.GlyphAddressHoldsTheGlyph := by
  refine fun s x => ⟨setsIndex_of_exec (exec_ldF x s) (toNat_glyphAddr _), fun hinv t ht d k hd hk hx => ?_⟩
  cases (exec_ldF x s).symm.trans ht
  have haddr : (glyphAddr (s.reg x)).toNat + k = 0x050 + (5 * d + k) := by rw [toNat_glyphAddr, hx, Nat.add_assoc]
  exact (congrArg s.readByte haddr).trans (hinv.readByte_font (by omega))

/-! ### The stores (R109, R110) -/

theorem State.storeByte_frame (s : State) (a : Nat) (b : Byte) :
    s.storeByte a b = { s with memory := (s.storeByte a b).memory } := by
  unfold State.storeByte
  split <;> rfl

theorem State.storeBytes_frame (s : State) (cells : List (Nat × Byte)) :
    s.storeBytes cells = { s with memory := (s.storeBytes cells).memory } := by
  induction cells generalizing s with
  | nil => rfl
  | cons p rest ih =>
    rw [State.storeBytes, ih, State.storeByte_frame]

/-- A byte of the font is none that an instruction stores. -/
theorem exec_readByte_font {i : Instr} {s t : State} {a : Nat} (h : exec i s = .next t) (ha : InFont a) :
    t.readByte a = s.readByte a :=
  exec_readByte_of_not_storesAt h fun _ hs => hs.1 ha

/-- Settles O40: the bytes stored are those of `StoresAt`. -/
theorem bcdStoresTheDigits : Obligations.BcdStoresTheDigits := by
  intro s x hr
  have he := exec_ldB_of_reaches x hr
  refine ⟨_, he, s.storeBytes_frame _, fun k hk a ha hf => ?stored, fun a ha => exec_readByte_font he ha,
    fun a ha => exec_readByte_of_not_storesAt he ?other⟩
  case stored =>
    have hdigit := toNat_getElem_bcdDigits (s.reg x) k hk
    rw [exec_readByte_of_storesAt he ⟨hf, k, hk, ha, hdigit⟩, hdigit]
  case other =>
    rintro b ⟨-, k, hk, hka, -⟩
    exact ha k hk hka

/-- Settles O41: the bytes stored are those of `StoresAt`. -/
theorem storeRegistersStoresV0ToVx : Obligations.StoreRegistersStoresV0ToVx := by
  intro s x hr
  have he := exec_storeRegs_of_reaches hr
  refine ⟨_, he, s.storeBytes_frame _, fun r hrx a ha hf => exec_readByte_of_storesAt he ⟨hf, r, hrx, ha, rfl⟩,
    fun a ha => exec_readByte_font he ha, fun a ha => exec_readByte_of_not_storesAt he ?_⟩
  rintro b ⟨-, r, hrx, hra, -⟩
  exact ha r hrx hra

/-! ### The load (R111) -/

/-- Settles O42: register `r` takes byte `r` of the access, and the list ends with Vx's. -/
theorem loadRegistersLoadsV0ToVx : Obligations.LoadRegistersLoadsV0ToVx := by
  intro s x hr
  refine ⟨s.setRegs (s.bytesAtIndex (x.val + 1)), exec_loadRegs_of_reaches hr, rfl, s.setRegs_readByte _,
    fun r hrx a ha => ?loaded, fun r hxr => ?kept⟩
  case loaded =>
    have hlt : r.val < (s.bytesAtIndex (x.val + 1)).length := by
      rw [State.length_bytesAtIndex]; exact Nat.lt_succ_of_le hrx
    rw [State.reg_setRegs, List.getElem?_eq_getElem hlt, State.getElem_bytesAtIndex hlt ha, Option.getD_some]
  case kept =>
    have hge : (s.bytesAtIndex (x.val + 1)).length ≤ r.val := by rw [State.length_bytesAtIndex]; exact hxr
    rw [State.reg_setRegs, List.getElem?_eq_none hge, Option.getD_none]

/-- Settles O43: the load reads the addresses that the store wrote, as `I` and the parameters are the same. -/
theorem storeThenLoadRestoresRegisters : Obligations.StoreThenLoadRestoresRegisters := by
  intro s t x V' q h hfont
  have hr : s.Reaches (x.val + 1) := completes_of_exec_next h
  obtain ⟨t', ht', hframe, hstored, -⟩ := storeRegistersStoresV0ToVx s x hr
  cases ht'.symm.trans h
  have hcfg : t.cfg = s.cfg := by rw [hframe]
  have hI : t.I = s.I := by rw [hframe]
  have hr' : ({ t with V := V', pc := q } : State).Reaches (x.val + 1) := by
    show t.cfg.addrMode = .wrap ∨ t.I.toNat + (x.val + 1) ≤ 0x1000 ∨ x.val + 1 = 0
    rw [hcfg, hI]
    exact hr
  obtain ⟨u, hu, -, -, hloaded, hkept⟩ := loadRegistersLoadsV0ToVx { t with V := V', pc := q } x hr'
  refine ⟨u, hu, fun r hrx => ?_, fun r hxr => hkept r hxr⟩
  have ha := checkAddr_of_reaches hr (k := r.val) (Nat.lt_succ_of_le hrx)
  have ha' : checkAddr t.cfg.addrMode (t.I.toNat + r.val) = .ok ((s.I.toNat + r.val) % 0x1000) := by rw [hcfg, hI, ha]
  exact (hloaded r hrx _ ha').trans (hstored r hrx _ ha (hfont r hrx _ ha))

/-! ### The fetch after a store (R49) -/

theorem run_succ_next {M : Host.Core} {s u : M.State} {n : Nat} (h : M.run (n + 1) s = .next u) :
    ∃ t, M.step s = .next t ∧ M.run n t = .next u := by
  rw [Host.Core.run] at h
  split at h
  · exact ⟨_, ‹_›, h⟩
  all_goals cases h

/-- A byte that no cycle of a run stores reads the same at its end. -/
theorem run_readByte_of_not_storesAt {n : Nat} {t u : State} {a : Nat} (h : Host.Core.run core n t = .next u)
    (hs : ∀ m < n, ∀ v : State, Host.Core.run core m t = .next v → ∀ c, ¬ CycleStoresAt v a c) :
    u.readByte a = t.readByte a := by
  induction n generalizing t with
  | zero => cases h; rfl
  | succ n ih =>
    obtain ⟨t', hstep, hrun⟩ := run_succ_next h
    have hlater := ih hrun fun m hm v hv => hs (m + 1) (by omega) v ((run_succ_of_step_next m hstep).trans hv)
    exact hlater.trans (step_readByte_of_not_storesAt hstep (hs 0 (by omega) t rfl))

/-- Settles O44: the byte stored is still there after the run, and the fetch reads memory as it is. -/
theorem fetchSeesTheStoredWord : Obligations.FetchSeesTheStoredWord := by
  intro n s t u a b hstep hstore hrun hnone w hw
  have hbyte : u.readByte a = b :=
    (run_readByte_of_not_storesAt hrun hnone).trans (step_readByte_of_storesAt hstep hstore)
  obtain ⟨-, rfl⟩ := fetch_ok hw
  refine ⟨fun ha => ?_, fun ha => ?_⟩
  · rw [State.wordAtPc, wordOfBytes_high, ha, hbyte]
  · rw [State.wordAtPc, wordOfBytes_low, ha, hbyte]

end Sys2Proof.Machine
end

section
/-! Drawing (R114 to R117): the points of the sprite that an instruction draws are the pixels it covers, and each is toggled
once. -/

namespace Sys2Proof.Machine

/-- The grid points of the sprite that `Dxyn` draws. -/
def State.drawnPoints (s : State) (x y : RegNum) (n : Nibble) : List (Fin 32 × Fin 64) :=
  spritePoints s.cfg.spriteEdge ((s.reg x).toNat % 64) ((s.reg y).toNat % 32) (s.bytesAtIndex n.toNat)

theorem State.nodup_drawnPoints (s : State) (x y : RegNum) (n : Nibble) : (s.drawnPoints x y n).Nodup := by
  have := n.isLt
  exact nodup_spritePoints (by rw [State.length_bytesAtIndex]; omega)

/-- R116 in the words of R114's pseudocode: past an edge a clipped pixel is no pixel of the grid, and a wrapped one is
where its coordinates fall modulo the grid. -/
theorem covers_iff_gridPoint {edge : SpriteEdge} {x0 y0 b k : Nat} {r : Fin 32} {c : Fin 64} :
    (match edge with
      | .clip => c.val = x0 + b ∧ r.val = y0 + k
      | .wrap => c.val = (x0 + b) % 64 ∧ r.val = (y0 + k) % 32) ↔
      gridPoint edge (x0 + b) (y0 + k) = some (r, c) := by
  rw [gridPoint_eq_some]
  cases edge with
  | clip => simp only [true_implies]; omega
  | wrap => simp only [reduceCtorEq, false_implies, and_true]; omega

theorem State.mem_drawnPoints {s : State} {x y : RegNum} {n : Nibble} (h : s.Reaches n.toNat) (r : Fin 32) (c : Fin 64) :
    (r, c) ∈ s.drawnPoints x y n ↔ SpriteCovers s x y n r c := by
  rw [State.drawnPoints, mem_spritePoints]
  constructor
  · rintro ⟨k, hk, b, hb, hbit, hp⟩
    have ha := checkAddr_of_reaches h (k := k) (by simpa using hk)
    rw [State.getElem_bytesAtIndex hk ha] at hbit
    exact ⟨k, by simpa using hk, b, hb, _, ha, hbit, covers_iff_gridPoint.mpr hp⟩
  · rintro ⟨k, hk, b, hb, a, ha, hbit, hp⟩
    have hk' : k < (s.bytesAtIndex n.toNat).length := by simpa using hk
    exact ⟨k, hk', b, hb, by rwa [State.getElem_bytesAtIndex hk' ha], covers_iff_gridPoint.mp hp⟩

/-- A pixel after the draw: toggled if the sprite has that point. -/
theorem State.pixel_drawSprite (s : State) (x y : RegNum) (n : Nibble) (r : Fin 32) (c : Fin 64) :
    (s.drawSprite x y (s.bytesAtIndex n.toNat)).disp.pixel r c =
      (s.disp.pixel r c ^^ decide ((r, c) ∈ s.drawnPoints x y n)) := by
  rw [State.drawSprite_disp]
  by_cases h : (r, c) ∈ s.drawnPoints x y n
  · rw [decide_eq_true h, Bool.xor_true]
    exact drawPoints_pixel_of_mem _ _ (s.nodup_drawnPoints x y n) h
  · rw [decide_eq_false h, Bool.xor_false]
    exact drawPoints_pixel_of_not_mem _ _ h

/-- The flag of the draw is the collision of R114: some pixel went from set to unset. -/
theorem State.collision_iff (s : State) (x y : RegNum) (n : Nibble) :
    (drawPoints s.disp false (s.drawnPoints x y n)).2 = true ↔
      ∃ r c, s.disp.pixel r c = true ∧ (s.drawSprite x y (s.bytesAtIndex n.toNat)).disp.pixel r c = false := by
  rw [drawPoints_flag _ _ (s.nodup_drawnPoints x y n), Bool.false_or, List.any_eq_true]
  constructor
  · rintro ⟨⟨r, c⟩, hmem, hset⟩
    exact ⟨r, c, hset, by rw [State.pixel_drawSprite, hset, decide_eq_true hmem]; rfl⟩
  · rintro ⟨r, c, hset, hunset⟩
    rw [State.pixel_drawSprite, hset, Bool.true_xor, Bool.not_eq_false', decide_eq_true_iff] at hunset
    exact ⟨(r, c), hunset, hset⟩

/-- Settles O46: the points drawn are the pixels covered, each once, and the flag is the collision. -/
theorem drawTogglesTheCoveredPixels : Obligations.DrawTogglesTheCoveredPixels := by
  intro s x y n h
  refine ⟨s.drawSprite x y (s.bytesAtIndex n.toNat), exec_drw_of_reaches x y h, rfl,
    fun r hr => s.drawSprite_reg_ne x y _ hr, s.drawSprite_readByte x y _, fun r c => ?toggled, fun hcol => ?collision,
    fun hcol => ?none⟩
  case toggled =>
    rw [State.pixel_drawSprite, ← State.mem_drawnPoints h r c]
    by_cases hm : (r, c) ∈ s.drawnPoints x y n <;> simp [hm]
  case collision => exact (s.drawSprite_flag x y _).trans (if_pos ((s.collision_iff x y n).mpr hcol))
  case none => exact (s.drawSprite_flag x y _).trans (if_neg (mt (s.collision_iff x y n).mp hcol))

/-! ### Drawing twice (E6) -/

theorem Display.ext_pixel {d d' : Display} (h : ∀ r c, d.pixel r c = d'.pixel r c) : d = d' :=
  Vector.ext fun r hr => Vector.ext fun c hc => h ⟨r, hr⟩ ⟨c, hc⟩

theorem eq_of_toggled_twice {a b c : Bool} : (c ≠ b ↔ b ≠ a) → c = a := by
  revert a b c; decide

/-- Settles O47: the second draw covers the same pixels, so it toggles each of them back. -/
theorem drawingTwiceRestoresTheDisplay : Obligations.DrawingTwiceRestoresTheDisplay := by
  intro s t x y n h
  have hr : s.Reaches n.toNat := completes_of_exec_next h
  obtain ⟨t', ht', hframe, -, -, htoggle, -, hclear⟩ := drawTogglesTheCoveredPixels s x y n hr
  cases ht'.symm.trans h
  have hback : ({ t with V := s.V } : State) = { s with disp := t.disp } := by rw [hframe]
  obtain ⟨u, hu, -, -, -, huntoggle, hcollide, hnot⟩ := drawTogglesTheCoveredPixels { s with disp := t.disp } x y n hr
  have hsame : ∀ r c, u.disp.pixel r c = s.disp.pixel r c :=
    fun r c => eq_of_toggled_twice ((huntoggle r c).trans (htoggle r c).symm)
  refine ⟨u, hback ▸ hu, Display.ext_pixel hsame, fun hblank => ⟨hclear ?first, fun hVF => ?covers, ?second⟩⟩
  case first =>
    rintro ⟨r, c, hset, -⟩
    exact absurd hset (by simp [hblank r c])
  case covers =>
    by_contra hno
    have hVF0 : u.reg VF = 0 := hnot <| by
      rintro ⟨r, c, hset, -⟩
      have hset : t.disp.pixel r c = true := hset
      exact hno ⟨r, c, (htoggle r c).mp (by simp [hset, hblank r c])⟩
    exact absurd (hVF0.symm.trans hVF) (by decide)
  case second =>
    rintro ⟨r, c, hcov⟩
    have hset : t.disp.pixel r c = true := by simpa [hblank r c] using (htoggle r c).mpr hcov
    exact hcollide ⟨r, c, hset, (hsame r c).trans (hblank r c)⟩

end Sys2Proof.Machine
end

section
/-! The host's writes and its introspection (R76, R78, R80). -/

namespace Sys2Proof.Machine

/-! ### LoadRom (R78) -/

/-- A byte outside the block reads as before. -/
theorem copyBytes_readByte_other {s : State} {a c : Nat} {bytes : List Byte} (h : c < a ∨ a + bytes.length ≤ c) :
    (copyBytes s a bytes).readByte c = s.readByte c := by
  induction bytes generalizing s a with
  | nil => rfl
  | cons b rest ih =>
    rw [List.length_cons] at h
    exact (ih (by omega)).trans (s.readByte_writeByte_ne b (by omega))

theorem copyBytes_readByte {s : State} {a k : Nat} {bytes : List Byte} (h : k < bytes.length) :
    (copyBytes s a bytes).readByte (a + k) = bytes[k] := by
  induction bytes generalizing s a k with
  | nil => simp at h
  | cons b rest ih =>
    cases k with
    | zero =>
      have hlater : (copyBytes (s.writeByte a b) (a + 1) rest).readByte a = (s.writeByte a b).readByte a :=
        copyBytes_readByte_other (.inl (Nat.lt_succ_self a))
      exact hlater.trans (s.readByte_writeByte_self a b)
    | succ k =>
      rw [show a + (k + 1) = a + 1 + k by omega]
      exact ih (Nat.lt_of_succ_lt_succ h)

/-- Settles O52: the block's bytes are where they were copied, and all else is as before. -/
theorem loadRomCopiesOrRefuses : Obligations.LoadRomCopiesOrRefuses := fun s _ =>
  ⟨fun hlong => opLoadRom_of_too_long s hlong, fun hfits => ⟨_, opLoadRom_of_fits s hfits, copyBytes_frame ..,
    fun _ hk => copyBytes_readByte hk, fun _ ha => copyBytes_readByte_other ha⟩⟩

/-! ### WriteKeys (R76) -/

/-- Settles O53: the latch is replaced whole. -/
theorem writeKeysSetsEveryKey : Obligations.WriteKeysSetsEveryKey :=
  fun _ _ => ⟨rfl, fun _ => rfl, rfl, fun _ => rfl⟩

/-! ### Introspect (R80) -/

/-- The addresses of a range that lie in memory come first: up to one of them, none is left out. -/
theorem getElem?_addresses_in_memory {lo len k : Nat} (hk : k < len) (hmem : lo + k < memSize) :
    (((List.range len).map (lo + ·)).filter (· < memSize))[k]? = some (lo + k) := by
  obtain ⟨m, rfl⟩ := Nat.exists_eq_add_of_lt hk
  have hfirst : ((List.range (k + 1)).map (lo + ·)).filter (· < memSize) = (List.range (k + 1)).map (lo + ·) := by
    rw [List.filter_eq_self]
    intro a ha
    obtain ⟨j, hj, rfl⟩ := List.mem_map.mp ha
    have := List.mem_range.mp hj
    exact decide_eq_true (by omega)
  rw [show k + m + 1 = k + 1 + m by omega, List.range_add, List.map_append, List.filter_append, hfirst,
    List.getElem?_append_left (by simp)]
  simp

/-- Settles O55: `sp` is at most the sixteen entries of the stack, so exactly the live ones are shown. -/
theorem introspectShowsLiveState : Obligations.IntrospectShowsLiveState := by
  intro s lo len h
  have hsp : s.sp.toNat ≤ 16 := h.sp_le.trans (stackDepth_le s.cfg)
  refine ⟨opIntrospect lo len s, rfl, fun r => ?regs, rfl, rfl, rfl, rfl, rfl, rfl, ?live, fun j hj => ?entry,
    fun k hk hmem => ?memory⟩
  case regs => simp [opIntrospect, State.reg]
  case live => simpa [opIntrospect] using hsp
  case entry =>
    have hj16 : j < 16 := by omega
    simp [opIntrospect, State.stackEntry, hj, hj16]
  case memory => rw [opIntrospect, List.getElem?_map, getElem?_addresses_in_memory hk hmem]; rfl

end Sys2Proof.Machine
end
